-- ==== Sys2Proof/Word.lean ====
section
/-! DEFINITION. The word types of QXH-CORE: a byte, a command word, a response word, the 160-bit accumulator value. -/

namespace Sys2Proof

/-- The unit of input (20_memory.md R48). -/
abbrev Byte := BitVec 8

/-- One command word `CW` of exactly 80 bits (30_encoding.md R60). -/
abbrev CommandWord := BitVec 80

/-- One response word `RSP` of 168 bits (30_encoding.md R66). -/
abbrev ResponseWord := BitVec 168

/-- A 160-bit accumulator or digest value: lane k is bits 8k+7..8k (10_state.md R21). -/
abbrev Word160 := BitVec 160

/-- The payload field DATA of a command word (30_encoding.md R60). -/
abbrev Data := BitVec 64

end Sys2Proof
end

