-- ==== Sys2Proof/Machine/Operands.lean ====
section
/-! DEFINITION. Operand assembly: the fields of a command word (30_encoding.md R60) and the bytes of a beat (R64). -/

namespace Sys2Proof

/-- `OPC = CW[3:0]` (30_encoding.md R60). -/
def cwOpc (cw : CommandWord) : BitVec 4 := cw.extractLsb' 0 4

/-- `CNT = CW[7:4]` (30_encoding.md R60). -/
def cwCnt (cw : CommandWord) : BitVec 4 := cw.extractLsb' 4 4

/-- `RSV = CW[15:8]` (30_encoding.md R60). -/
def cwRsv (cw : CommandWord) : BitVec 8 := cw.extractLsb' 8 8

/-- `DATA = CW[79:16]` (30_encoding.md R60). -/
def cwData (cw : CommandWord) : Data := cw.extractLsb' 16 64

/-- `byte(j) = DATA[8j+7:8j]` (30_encoding.md R64, 20_memory.md R42). -/
def dataByte (data : Data) (j : Nat) : Byte := data.extractLsb' (8 * j) 8

/-- The bytes of a beat: `byte(0), ..., byte(cnt-1)`, earliest first (30_encoding.md R64, R65). -/
def beat (data : Data) (cnt : Nat) : List Byte := (List.range cnt).map (dataByte data)

end Sys2Proof
end

