-- ==== Sys2Proof/Config.lean ====
section
/-! DEFINITION. What an implementation fixes: the constants of 00_scope.md R6, the choice of VARIANT (R7), and the
open parameters and unspecified values, which are constants with no body. -/

namespace Sys2Proof

/-- The two internal designs (00_scope.md R7): `VARIANT ∈ {PER_BYTE, BLOCK}`. -/
inductive Variant where
  | perByte
  | block
deriving DecidableEq, Repr

/-- `DIGEST_BYTES` (00_scope.md R6). -/
def Config.digestBytes : Nat := 20

/-- `DIGEST_BITS` (00_scope.md R6), the width of `Word160`. -/
def Config.digestBits : Nat := 160

/-- `SHIFT_Q`, the shift quantum (00_scope.md R6). -/
def Config.shiftQuantum : Nat := 11

/-- `BLOCK_BYTES` (00_scope.md R6), used by the block-buffered variant only. -/
def Config.blockBytes : Nat := 160

/-- `LEN_BITS` (00_scope.md R6), the width of `State.len`. -/
def Config.lenBits : Nat := 64

/-- `LEN_FOLD_OFFSET`: LEN is folded into digest bytes 12 to 19 (00_scope.md R6). -/
def Config.lenFoldOffset : Nat := 12

/-- `BEAT_BYTES`, the largest number of bytes one UPDATE carries (00_scope.md R6). -/
def Config.beatBytes : Nat := 8

/-- `CW_BITS`, the width of `CommandWord` (00_scope.md R6). -/
def Config.commandBits : Nat := 80

/-- `RSP_BITS`, the width of `ResponseWord` (00_scope.md R6). -/
def Config.responseBits : Nat := 168

/-- The open parameter `CMD_QUEUE_DEPTH` less one (30_encoding.md R71, 92_eei_decisions.md D16): how many more
commands than one the block accepts ahead of the responses taken. No body: the depth is at least 1 and otherwise free.
Log entry 4. -/
opaque Config.commandsAhead : Nat

/-- ACC after power-up and before the first reset: unspecified (10_state.md R30). Log entry 5. -/
opaque Config.powerUpAcc : Word160

/-- SHIFT after power-up: unspecified (10_state.md R30). Log entry 5. -/
opaque Config.powerUpShift : Fin 160

/-- LEN after power-up: unspecified (10_state.md R30). Log entry 5. -/
opaque Config.powerUpLen : BitVec 64

/-- PHASE after power-up: unspecified (10_state.md R30), one of the three values R24 names. Log entry 5. -/
opaque Config.powerUpPhase : Fin 3

/-- BUF after power-up, in a BLOCK instance: unspecified (10_state.md R30, R27). Log entry 5. -/
opaque Config.powerUpBuf : Vector Byte 160

/-- ACCB after power-up, in a BLOCK instance: unspecified (10_state.md R30, R27). Log entry 5. -/
opaque Config.powerUpAccb : Vector Byte 160

/-- CUR after power-up, in a BLOCK instance: unspecified (10_state.md R30, R27). Log entry 5. -/
opaque Config.powerUpCur : Fin 160

end Sys2Proof
end

