-- ==== Sys2Proof/Syntax.lean ====
section
/-! DEFINITION. The commands of spec/opcode_table.json as syntax, the two ways a command word can be illegal, and the
assembler's lines. -/

namespace Sys2Proof

/-- One constructor per row of spec/opcode_table.json (30_encoding.md R61, R65). -/
inductive Instr where
  /-- INIT starts a new logical message (42_lifecycle.md R130). It has no operand: its DATA is ignored (R64). -/
  | init
  /-- UPDATE absorbs `bytes`, the first CNT bytes of DATA in increasing index; CNT is the list's length, 0 to 8
  (40_update.md R80). -/
  | update (bytes : List Byte)
  /-- FINAL returns the digest (41_finalize.md R110). It has no operand: its DATA is ignored (R64). -/
  | final
deriving DecidableEq, Repr

/-- What an illegal command word reports (60_exceptions.md R141). -/
inductive IllegalCode where
  /-- `ILLEGAL_OPC`: OPC is reserved. -/
  | illegalOpc
  /-- `ILLEGAL_FIELD`: OPC is legal, but CNT or RSV is out of range. -/
  | illegalField
deriving DecidableEq, Repr

/-- One line of assembly (30_encoding.md R68) or one pseudo-instruction (R69). -/
inductive AsmLine where
  /-- `init` -/
  | init
  /-- `update b0, ..., b(n-1)` with zero to eight byte operands -/
  | update (bytes : List Byte)
  /-- `final` -/
  | final
  /-- `.cw 0xHHHHHHHHHHHHHHHHHHHH`: the 80-bit word, unchanged -/
  | cw (word : CommandWord)
  /-- the pseudo-instruction `absorb b0, ..., b(n-1)` for any n ≥ 0 -/
  | absorb (bytes : List Byte)
  /-- the pseudo-instruction `hash b0, ..., b(n-1)` -/
  | hash (bytes : List Byte)
deriving DecidableEq, Repr

end Sys2Proof
end

