-- ==== Sys2Proof/WellFormed.lean ====
section
/-! DEFINITION. The one check on an instruction: an UPDATE carries at most 8 bytes (30_encoding.md R62). -/

namespace Sys2Proof

/-- INIT and FINAL have no operand to check; UPDATE carries 0 to `BEAT_BYTES` = 8 bytes (30_encoding.md R62). -/
def Instr.wellFormed : Instr → Bool
  | .init => true
  | .update bytes => decide (bytes.length ≤ Config.beatBytes)
  | .final => true

end Sys2Proof
end

