-- ==== Sys2Proof/Decode.lean ====
section
/-! DEFINITION. The decoder, total over all 2^80 command words (30_encoding.md R65), and after it the encoder (R68)
and the expansion of the assembler's lines (R69). -/

namespace Sys2Proof

/-- The decoder of 30_encoding.md R65, its tests in the rule's order (60_exceptions.md R143). -/
def decode (cw : CommandWord) : Except IllegalCode Instr :=
  if cwOpc cw ≠ 0x1#4 ∧ cwOpc cw ≠ 0x2#4 ∧ cwOpc cw ≠ 0x3#4 then .error .illegalOpc
  else if cwRsv cw ≠ 0#8 then .error .illegalField
  else if cwOpc cw = 0x2#4 then
    if (cwCnt cw).toNat > Config.beatBytes then .error .illegalField
    else .ok (.update (beat (cwData cw) (cwCnt cw).toNat))
  else if cwCnt cw ≠ 0#4 then .error .illegalField
  else if cwOpc cw = 0x1#4 then .ok .init
  else .ok .final

/-- The command word of `nbits` table bits `w`, every bit above them 0: bit 0 of `w` is bit 0 of the word. -/
def tableWord (nbits w : Nat) : CommandWord := BitVec.ofNat 80 (w % 2 ^ nbits)

/-- What the decoder reads from an instruction given in spec/opcode_table.json's own bit numbering. -/
def decodeTableWord (nbits w : Nat) : Option Instr :=
  match decode (tableWord nbits w) with
  | .ok i => some i
  | .error _ => none

/-- A command word from its fields: `{DATA, RSV = 0, CNT, OPC}` (30_encoding.md R60, R63). -/
def commandWord (opc cnt : BitVec 4) (data : Data) : CommandWord := data ++ 0#8 ++ cnt ++ opc

/-- DATA holding the listed bytes, byte j at bits 8j+7..8j, every byte not listed 0 (30_encoding.md R68). -/
def packBytes : List Byte → Data
  | [] => 0#64
  | b :: bs => (packBytes bs <<< 8) ||| b.zeroExtend 64

/-- The encoder: `init`, `update` and `final` as 30_encoding.md R68 encodes them. -/
def encode : Instr → CommandWord
  | .init => commandWord 0x1#4 0#4 0#64
  | .update bytes => commandWord 0x2#4 (BitVec.ofNat 4 bytes.length) (packBytes bytes)
  | .final => commandWord 0x3#4 0#4 0#64

/-- `bs` cut into beats of `BEAT_BYTES` = 8, the last holding the rest; `fuel` bounds the number of beats. -/
def beatsOf : Nat → List Byte → List (List Byte)
  | 0, _ => []
  | fuel + 1, bs => if bs.length ≤ Config.beatBytes then [bs] else bs.take Config.beatBytes :: beatsOf fuel (bs.drop Config.beatBytes)

/-- The UPDATE commands one `absorb` expands to: one empty `update` for no bytes, else ⌈n/8⌉ of them
(30_encoding.md R69). -/
def absorbWords (bs : List Byte) : List CommandWord :=
  (beatsOf (bs.length + 1) bs).map fun chunk => encode (.update chunk)

/-- The command words a line stands for (30_encoding.md R68, R69); none where the line is not one of the syntax: an
`update` has at most eight operands. -/
def assemble : AsmLine → Option (List CommandWord)
  | .init => some [encode .init]
  | .update bytes => if (Instr.update bytes).wellFormed then some [encode (.update bytes)] else none
  | .final => some [encode .final]
  | .cw word => some [word]
  | .absorb bytes => some (absorbWords bytes)
  | .hash bytes => some (encode .init :: absorbWords bytes ++ [encode .final])

end Sys2Proof
end

