-- ==== Sys2Proof/Machine/State.lean ====
section
/-! DEFINITION. The state of one QXH-CORE instance, its channels and its reset input, as plain data (10_state.md R20,
R27, R30; 30_encoding.md R71); the state after reset (70_reset_and_hazards.md R160); the reasons a step can stop. -/

namespace Sys2Proof.Machine

/-- The lifecycle status PHASE (10_state.md R24). Its fourth value is never produced. -/
inductive Phase where
  /-- 0, CREATED: entered by reset and INIT. -/
  | created
  /-- 1, ACTIVE: entered by any legal UPDATE. -/
  | active
  /-- 2, FINALIZED: entered by any legal FINAL. -/
  | finalized
deriving DecidableEq, Repr

/-- The accumulator storage of an instance. A PER_BYTE instance holds ACC and SHIFT (10_state.md R21, R23); a BLOCK
instance holds, instead of them, BUF, ACCB and CUR (10_state.md R27). -/
inductive HashStore where
  /-- `ACC`, 160 bits, and `SHIFT`, of exactly 160 values (93_implementation_defined.md U10). -/
  | perByte (acc : Word160) (shift : Fin 160)
  /-- `BUF[0..159]` the raw window, `ACCB[0..159]` the block accumulator, `CUR` the cursor. DEDUCED: the arrangement is
  that of 40_update.md R93. Log entry 2. -/
  | block (buf accb : Vector Byte 160) (cur : Fin 160)
deriving DecidableEq, Repr

/-- The reset input as the instance has seen it since power-up (10_state.md R30; 70_reset_and_hazards.md R161, R162). -/
inductive ResetStatus where
  /-- Power is up and reset has not been applied yet: no command is accepted. -/
  | neverReset
  /-- Reset is asserted: no command is accepted. -/
  | asserted
  /-- Reset has been applied and released. -/
  | released
deriving DecidableEq, Repr

/-- One thing the outside world does at the instance's interface (30_encoding.md R71). -/
inductive HostAction where
  /-- The host puts a command word on the command channel. -/
  | issue (cw : CommandWord)
  /-- A second host puts a word on the same command channel (60_exceptions.md R147). -/
  | issueByOther (cw : CommandWord)
  /-- The host takes the oldest response word, if one is waiting. -/
  | take
  /-- The host asserts reset. -/
  | assertReset
  /-- The host releases reset. -/
  | releaseReset
  /-- The host waits while the block makes one move. -/
  | wait
deriving DecidableEq, Repr

/-- What became of the response of the last command that left the interface: what a host that keeps count of its
responses knows of it (30_encoding.md R71). -/
inductive ResponseFate where
  /-- No command has left the interface yet. -/
  | noneYet
  /-- The host took it. -/
  | taken
  /-- Reset discarded it, or the command before it had one (70_reset_and_hazards.md R161). -/
  | discarded
deriving DecidableEq, Repr

/-- One QXH-CORE instance with its interface. -/
structure State where
  /-- ACC and SHIFT, or BUF, ACCB and CUR (10_state.md R20, R27). -/
  store : HashStore
  /-- `LEN`, the byte count modulo 2^64 (10_state.md R22). -/
  len : BitVec 64
  /-- `PHASE` (10_state.md R24). -/
  phase : Phase
  /-- The reset input (70_reset_and_hazards.md R161, R162). Log entry 15. -/
  resetStatus : ResetStatus
  /-- The command channel: words issued and not yet executed, oldest first (30_encoding.md R71). -/
  commands : List CommandWord
  /-- The response channel: words emitted and not yet taken, oldest first (30_encoding.md R71). -/
  responses : List ResponseWord
  /-- The model's own field: what the host does next, oldest first. Log entry 3. -/
  inputs : List HostAction
  /-- The model's own field: what became of the response of the last command that left the interface, which decides
  whether a run is over (30_encoding.md R71). No step reads it but to keep it. Log entry 16. -/
  lastResponse : ResponseFate
deriving DecidableEq, Repr

/-- Why the machine stops with a fault. -/
inductive Fault where
  /-- Raised by a move of the block that finds a command word waiting before the first reset: there is no command
  step before reset (70_reset_and_hazards.md R162; 93_implementation_defined.md U4, `stuck`). Safe: the hardware
  accepts no command there either. -/
  | beforeFirstReset
deriving DecidableEq, Repr

/-- Why the machine gives no meaning. -/
inductive Refusal where
  /-- Raised by an arm of `exec` that has no meaning yet; no arm is one. Safe: nothing can be proved of it. -/
  | notModelled (mnemonic : String)
  /-- Raised when a second host issues a word on the instance's one port: a model refuses such a platform
  (60_exceptions.md R147; 93_implementation_defined.md U3). Safe: nothing is claimed of such a platform. -/
  | mergedHosts
  /-- Raised when the host takes a response word whose CODE or PHASE is 3, which no conforming device produces
  (93_implementation_defined.md U9). Safe: nothing is claimed of such a device. -/
  | nonConformingResponse
deriving DecidableEq, Repr

/-- The cleared storage of an instance of the given variant: ACC and SHIFT 0, or BUF, ACCB and CUR 0
(10_state.md R27; 70_reset_and_hazards.md R160). -/
def HashStore.cleared : Variant → HashStore
  | .perByte => .perByte 0#160 0
  | .block => .block (Vector.replicate 160 0#8) (Vector.replicate 160 0#8) 0

/-- An instance of the given variant right after reset (70_reset_and_hazards.md R160, R161). -/
def State.resetOf (v : Variant) : State where
  store := HashStore.cleared v
  len := 0#64
  phase := .created
  resetStatus := .released
  commands := []
  responses := []
  inputs := []
  lastResponse := .noneYet

/-- The machine right after reset (70_reset_and_hazards.md R160). DESIGN CHOICE: the instance is of variant PER_BYTE,
which nothing a host observes depends on (40_update.md R95). Log entry 1. -/
def State.reset : State := State.resetOf .perByte

/-- The phase a number below 3 encodes (10_state.md R24). -/
def Phase.ofFin : Fin 3 → Phase
  | 0 => .created
  | 1 => .active
  | 2 => .finalized

/-- An instance after power-up and before its first reset: every element of the state is unspecified
(10_state.md R30), so each is a constant of Config with no body. Log entry 5. -/
def State.powerUp (v : Variant) : State where
  store := match v with
    | .perByte => .perByte Config.powerUpAcc Config.powerUpShift
    | .block => .block Config.powerUpBuf Config.powerUpAccb Config.powerUpCur
  len := Config.powerUpLen
  phase := Phase.ofFin Config.powerUpPhase
  resetStatus := .neverReset
  commands := []
  responses := []
  inputs := []
  lastResponse := .noneYet

end Sys2Proof.Machine
end

