-- ==== Sys2Proof/Machine/Flags.lean ====
section
/-! DEFINITION. The only flag, PHASE (10_state.md R24), and the completion codes (30_encoding.md R67), as the bits a
response word carries. -/

namespace Sys2Proof.Machine

/-- The two bits of PHASE (10_state.md R24). -/
def Phase.bits : Phase → BitVec 2
  | .created => 0#2
  | .active => 1#2
  | .finalized => 2#2

/-- CODE of a legal command (30_encoding.md R67). -/
def okCode : BitVec 2 := 0#2

/-- CODE of an illegal command word (30_encoding.md R67; 60_exceptions.md R141). -/
def illegalCode : IllegalCode → BitVec 2
  | .illegalOpc => 1#2
  | .illegalField => 2#2

/-- PHASE written, nothing else (10_state.md R24). -/
def State.setPhase (s : State) (p : Phase) : State := { s with phase := p }

end Sys2Proof.Machine
end

