-- ==== Sys2Proof/Machine/Response.lean ====
section
/-! DEFINITION. The response word (30_encoding.md R66): its layout, its fields, the digest's bytes. -/

namespace Sys2Proof.Machine

/-- `RSP = {DIGEST, 0000, PHASE, CODE}` (30_encoding.md R66). -/
def responseWord (code : BitVec 2) (phase : Phase) (digest : Word160) : ResponseWord :=
  digest ++ 0#4 ++ phase.bits ++ code

/-- `CODE = RSP[1:0]` (30_encoding.md R66). -/
def rspCode (r : ResponseWord) : BitVec 2 := r.extractLsb' 0 2

/-- `PHASE = RSP[3:2]` (30_encoding.md R66). -/
def rspPhase (r : ResponseWord) : BitVec 2 := r.extractLsb' 2 2

/-- `RSP[7:4]`, always 0 (30_encoding.md R66). -/
def rspZero (r : ResponseWord) : BitVec 4 := r.extractLsb' 4 4

/-- `DIGEST = RSP[167:8]` (30_encoding.md R66). -/
def rspDigest (r : ResponseWord) : Word160 := r.extractLsb' 8 160

/-- Digest byte k, at `RSP[8k+15:8k+8]` (30_encoding.md R66, 20_memory.md R43). -/
def rspDigestByte (r : ResponseWord) (k : Nat) : Byte := r.extractLsb' (8 * k + 8) 8

/-- Lane k of a 160-bit value, bits 8k+7..8k (00_scope.md R10, 10_state.md R21). -/
def lane (v : Word160) (k : Nat) : Byte := v.extractLsb' (8 * k) 8

/-- The 20-byte digest a DIGEST field holds, byte 0 first (30_encoding.md R66). -/
def digestBytes (d : Word160) : List Byte := (List.range Config.digestBytes).map (lane d)

/-- A response no conforming device produces: CODE 3 or PHASE 3 (93_implementation_defined.md U9). -/
def reservedResponse (r : ResponseWord) : Bool := rspCode r = 3#2 || rspPhase r = 3#2

end Sys2Proof.Machine
end

