-- ==== Sys2Proof/Machine/Ops.lean ====
section
/-! DEFINITION. The named operations over the state: rotation, the absorb step in both variants (40_update.md R82,
R93), FOLD (R94), the views ACC and SHIFT (10_state.md R28), the digest (41_finalize.md R112), responding, raising an
illegal command (60_exceptions.md R142), and applying reset (70_reset_and_hazards.md R160, R161). -/

namespace Sys2Proof.Machine

/-- `rotl_160(v, s)` for 0 ≤ s < 160 (00_scope.md R10). -/
def rotl160 (v : Word160) (s : Nat) : Word160 := (v <<< s) ||| (v >>> (160 - s))

/-- One byte routed to its place: `rotl_160(zext_160(b), s)` (40_update.md R82). -/
def routed (b : Byte) (s : Nat) : Word160 := rotl160 (b.zeroExtend 160) s

/-- `(s + 11) mod 160` (40_update.md R82). -/
def nextShift (s : Fin 160) : Fin 160 := ⟨(s.val + Config.shiftQuantum) % 160, Nat.mod_lt _ (by decide)⟩

/-- `(CUR + 1) mod 160` (40_update.md R93). -/
def nextCur (c : Fin 160) : Fin 160 := ⟨(c.val + 1) % 160, Nat.mod_lt _ (by decide)⟩

/-- Bytewise XOR of two 160-byte arrays (10_state.md R28). -/
def xorBlock (x y : Vector Byte 160) : Vector Byte 160 := Vector.zipWith (fun a b => a ^^^ b) x y

/-- The loop of `FOLD`: each byte routed with the shift `s`, which then advances (40_update.md R94). -/
def foldFrom : List Byte → Fin 160 → Word160 → Word160
  | [], _, a => a
  | x :: xs, s, a => foldFrom xs (nextShift s) (a ^^^ routed x s.val)

/-- `FOLD(X[0..159])` (40_update.md R94). -/
def foldBlock (x : Vector Byte 160) : Word160 := foldFrom x.toList 0 0#160

/-- Which variant an instance is (00_scope.md R7). -/
def HashStore.variant : HashStore → Variant
  | .perByte _ _ => .perByte
  | .block _ _ _ => .block

/-- ACC: held by a PER_BYTE instance, `FOLD(ACCB XOR BUF)` of a BLOCK instance (10_state.md R28; 41_finalize.md R115). -/
def HashStore.acc : HashStore → Word160
  | .perByte acc _ => acc
  | .block buf accb _ => foldBlock (xorBlock accb buf)

/-- SHIFT: held by a PER_BYTE instance, `(11 · CUR) mod 160` of a BLOCK instance (10_state.md R28). -/
def HashStore.shift : HashStore → Fin 160
  | .perByte _ shift => shift
  | .block _ _ cur => ⟨(Config.shiftQuantum * cur.val) % 160, Nat.mod_lt _ (by decide)⟩

/-- ABSORB on ACC and SHIFT (40_update.md R82). -/
def absorbPerByte (acc : Word160) (shift : Fin 160) (b : Byte) : HashStore :=
  .perByte (acc ^^^ routed b shift.val) (nextShift shift)

/-- ABSORB_BLOCK on BUF, ACCB and CUR, with the block fold, which clears BUF, when CUR wraps (40_update.md R93). -/
def absorbBlock (buf accb : Vector Byte 160) (cur : Fin 160) (b : Byte) : HashStore :=
  if nextCur cur = 0 then
    .block (Vector.replicate 160 0#8) (xorBlock accb (buf.set cur.val (buf[cur.val] ^^^ b))) 0
  else
    .block (buf.set cur.val (buf[cur.val] ^^^ b)) accb (nextCur cur)

/-- ABSORB on the storage of either variant (40_update.md R82, R93). -/
def HashStore.absorb (h : HashStore) (b : Byte) : HashStore :=
  match h with
  | .perByte acc shift => absorbPerByte acc shift b
  | .block buf accb cur => absorbBlock buf accb cur b

/-- ACC of the instance (10_state.md R21, R28). -/
def State.acc (s : State) : Word160 := s.store.acc

/-- SHIFT of the instance (10_state.md R23, R28). -/
def State.shift (s : State) : Fin 160 := s.store.shift

/-- The variant of the instance (00_scope.md R7). -/
def State.variant (s : State) : Variant := s.store.variant

/-- ABSORB(b): the byte into the accumulator, SHIFT on by 11, LEN on by 1 modulo 2^64 (40_update.md R82, R91). -/
def State.absorb (s : State) (b : Byte) : State :=
  { s with store := s.store.absorb b, len := s.len + 1#64 }

/-- The loop of UPDATE: the bytes absorbed in increasing index (40_update.md R81). -/
def State.absorbAll (s : State) : List Byte → State
  | [] => s
  | b :: bs => (s.absorb b).absorbAll bs

/-- `DIGEST = ACC XOR (zext_160(LEN) << 96)` (41_finalize.md R112). -/
def digestOf (acc : Word160) (len : BitVec 64) : Word160 :=
  acc ^^^ ((len.zeroExtend 160) <<< (8 * Config.lenFoldOffset))

/-- `respond(code, PHASE, digest)`: one response word put last on the response channel, PHASE being the value after
the command (30_encoding.md R66). -/
def State.respond (s : State) (code : BitVec 2) (digest : Word160) : State :=
  { s with responses := s.responses ++ [responseWord code s.phase digest] }

/-- `raise IllegalCommand(code)`: a response with the code, the unchanged PHASE and a zero digest; nothing else is
written (60_exceptions.md R142). There is nothing to return from: no trap exists (R144). -/
def State.raiseIllegal (s : State) (c : IllegalCode) : State := s.respond (illegalCode c) 0#160

/-- The hash state cleared: ACC, LEN, SHIFT (or BUF, ACCB, CUR) to 0 and PHASE to CREATED
(42_lifecycle.md R130; 70_reset_and_hazards.md R160). -/
def State.clearHash (s : State) : State :=
  { s with store := HashStore.cleared s.store.variant, len := 0#64, phase := .created }

/-- What became of the last command's response once reset is asserted: with a command or a response in flight it is
discarded and never taken (70_reset_and_hazards.md R161), else it is as before. -/
def State.fateAtReset (s : State) : ResponseFate :=
  if s.commands = [] ∧ s.responses = [] then s.lastResponse else .discarded

/-- Reset asserted: the reset values, and every command and response in flight discarded
(70_reset_and_hazards.md R160, R161). Log entry 6. -/
def State.assertReset (s : State) : State :=
  { s.clearHash with resetStatus := .asserted, commands := [], responses := [], lastResponse := s.fateAtReset }

/-- Reset released: commands are accepted from here on (70_reset_and_hazards.md R161). Releasing a reset that is not
asserted changes nothing. -/
def State.releaseReset (s : State) : State :=
  match s.resetStatus with
  | .asserted => { s with resetStatus := .released }
  | .neverReset => s
  | .released => s

/-- Fewer than CMD_QUEUE_DEPTH responses wait to be taken, so the block accepts a command (30_encoding.md R71). -/
def State.hasRoom (s : State) : Bool :=
  match s.responses with
  | [] => true
  | _ :: waiting => decide (waiting.length < Config.commandsAhead)

end Sys2Proof.Machine
end

