-- ==== Sys2Proof/Machine/Finalize.lean ====
section
/-! DEFINITION. FINAL (41_finalize.md). -/

namespace Sys2Proof.Machine

/-- FINAL: PHASE to FINALIZED, an OK response with the digest; ACC, LEN and SHIFT are not written
(41_finalize.md R111, R112, R114). -/
def execFinal (s : State) : Host.Outcome State Fault Refusal :=
  .next ((s.setPhase .finalized).respond okCode (digestOf s.acc s.len))

end Sys2Proof.Machine
end

