-- ==== Sys2Proof/Machine/Lifecycle.lean ====
section
/-! DEFINITION. INIT (42_lifecycle.md). -/

namespace Sys2Proof.Machine

/-- INIT: the hash state cleared, PHASE to CREATED, an OK response (42_lifecycle.md R130). -/
def execInit (s : State) : Host.Outcome State Fault Refusal :=
  .next (s.clearHash.respond okCode 0#160)

end Sys2Proof.Machine
end

