-- ==== Sys2Proof/Machine/Update.lean ====
section
/-! DEFINITION. UPDATE (40_update.md). -/

namespace Sys2Proof.Machine

/-- UPDATE: the bytes absorbed in order, PHASE to ACTIVE also for no bytes, an OK response with a zero digest
(40_update.md R81, R89). -/
def execUpdate (bytes : List Byte) (s : State) : Host.Outcome State Fault Refusal :=
  .next (((s.absorbAll bytes).setPhase .active).respond okCode 0#160)

end Sys2Proof.Machine
end

