-- ==== Sys2Proof/Machine/Dispatch.lean ====
section
/-! DEFINITION. One arm per constructor of Instr. -/

namespace Sys2Proof.Machine

def exec (i : Instr) (s : State) : Host.Outcome State Fault Refusal :=
  match i with
  | .init => Sys2Proof.Machine.execInit s
  | .update bytes => Sys2Proof.Machine.execUpdate bytes s
  | .final => Sys2Proof.Machine.execFinal s

end Sys2Proof.Machine
end

