-- ==== Sys2Proof/Machine/Execute.lean ====
section
/-! DEFINITION. Executing one accepted command word (00_scope.md R11), a move of the block, an action of the host
(30_encoding.md R71), and command sequences executed in order (20_memory.md R49). -/

namespace Sys2Proof.Machine

/-- One accepted command word executed whole: its instruction's meaning, or the illegal command raised
(30_encoding.md R65; 60_exceptions.md R142). -/
def executeWord (cw : CommandWord) (s : State) : Host.Outcome State Fault Refusal :=
  match decode cw with
  | .ok i => exec i s
  | .error c => .next (s.raiseIllegal c)

/-- Command words executed one after another, each on the state the one before it left (20_memory.md R49). -/
def executeAll : List CommandWord → State → Host.Outcome State Fault Refusal
  | [], s => .next s
  | cw :: rest, s =>
    match executeWord cw s with
    | .next t => executeAll rest t
    | .fault r => .fault r
    | .refused r => .refused r

/-- One move of the block: it accepts the oldest command word and executes it, in one step (00_scope.md R11). It stays
idle where no word waits, while reset is asserted (70_reset_and_hazards.md R161), and while the responses not taken
leave no room (30_encoding.md R71). Before the first reset there is no command step (R162). -/
def blockMove (s : State) : Host.Outcome State Fault Refusal :=
  match s.commands with
  | [] => .next s
  | cw :: rest =>
    match s.resetStatus with
    | .neverReset => .fault .beforeFirstReset
    | .asserted => .next s
    | .released => if s.hasRoom then executeWord cw { s with commands := rest } else .next s

/-- The host takes the oldest response; none waiting, nothing changes. A response no conforming device produces is
refused (30_encoding.md R71; 93_implementation_defined.md U9). -/
def takeResponse (s : State) : Host.Outcome State Fault Refusal :=
  match s.responses with
  | [] => .next s
  | r :: rest =>
    if reservedResponse r then .refused .nonConformingResponse
    else .next { s with responses := rest, lastResponse := .taken }

/-- One action of the outside world (30_encoding.md R71). -/
def hostAct (a : HostAction) (s : State) : Host.Outcome State Fault Refusal :=
  match a with
  | .issue cw => .next { s with commands := s.commands ++ [cw] }
  | .issueByOther _ => .refused .mergedHosts
  | .take => takeResponse s
  | .assertReset => .next s.assertReset
  | .releaseReset => .next s.releaseReset
  | .wait => blockMove s

/-- What is next at the interface: the host's next action, or with none pending a move of the block. -/
def nextEvent (s : State) : Host.Outcome State Fault Refusal :=
  match s.inputs with
  | [] => blockMove s
  | a :: rest => hostAct a { s with inputs := rest }

end Sys2Proof.Machine
end

