-- ==== Sys2Proof/Machine/Step.lean ====
section
/-! DEFINITION. The step, and where a command word stands so that the next step runs it. -/

namespace Sys2Proof.Machine

/-- One step: the host's next action, or with none pending one move of the block. -/
def step (s : State) : Host.Outcome State Fault Refusal := nextEvent s

/-- `s` with the command word first on the command channel and everything else the very next step needs to execute it:
reset released, room on the response channel, and a pending host action put off by a `wait`. Log entry 7. -/
def State.withFetchWord (s : State) (nbits w : Nat) : State :=
  { s with
    resetStatus := .released
    commands := tableWord nbits w :: s.commands
    responses := if s.hasRoom then s.responses else []
    inputs := match s.inputs with
      | [] => []
      | a :: rest => .wait :: a :: rest }

end Sys2Proof.Machine
end

