-- ==== Sys2Proof/Machine/Assembler.lean ====
section
/-! DEFINITION. The assembler's text (30_encoding.md R68, R69), read as a list of characters: one command per line, byte
operands `0x00`..`0xFF` or decimal 0..255 or an ASCII string, a comment from `;` to the end of the line. A notation,
not the hardware's (92_eei_decisions.md D21). Log entry 9. -/

namespace Sys2Proof

/-- A blank between words. -/
def asmBlank (c : Char) : Bool := c = ' ' || c = '\t' || c = '\r'

/-- Leading and trailing blanks taken off. -/
def asmTrim (cs : List Char) : List Char := ((cs.dropWhile asmBlank).reverse.dropWhile asmBlank).reverse

/-- The characters cut at each `sep`. -/
def asmSplit (sep : Char) : List Char → List (List Char)
  | [] => [[]]
  | c :: cs =>
    if c = sep then [] :: asmSplit sep cs
    else match asmSplit sep cs with
      | [] => [[c]]
      | w :: ws => (c :: w) :: ws

/-- The line up to its comment; a `;` inside a string starts none. -/
def asmCode : Bool → List Char → List Char
  | _, [] => []
  | true, c :: cs => c :: asmCode (c ≠ '"') cs
  | false, c :: cs => if c = ';' then [] else c :: asmCode (c = '"') cs

/-- The value of a hexadecimal digit. -/
def hexDigit (c : Char) : Option Nat :=
  if 48 ≤ c.toNat ∧ c.toNat ≤ 57 then some (c.toNat - 48)
  else if 65 ≤ c.toNat ∧ c.toNat ≤ 70 then some (c.toNat - 55)
  else if 97 ≤ c.toNat ∧ c.toNat ≤ 102 then some (c.toNat - 87)
  else none

/-- The value of a decimal digit. -/
def decDigit (c : Char) : Option Nat :=
  if 48 ≤ c.toNat ∧ c.toNat ≤ 57 then some (c.toNat - 48) else none

/-- The number a digit string writes in a base, most significant digit first, after `acc`. -/
def asmNumber (digit : Char → Option Nat) (base : Nat) : Nat → List Char → Option Nat
  | acc, [] => some acc
  | acc, c :: cs =>
    match digit c with
    | none => none
    | some d => asmNumber digit base (acc * base + d) cs

/-- A byte operand: `0x` and two hexadecimal digits, or decimal 0 to 255 (30_encoding.md R68). -/
def asmByte (cs : List Char) : Option Byte :=
  match asmTrim cs with
  | [] => none
  | ['0', 'x', h, l] => (asmNumber hexDigit 16 0 [h, l]).map (BitVec.ofNat 8)
  | ds =>
    match asmNumber decDigit 10 0 ds with
    | none => none
    | some n => if n ≤ 255 then some (BitVec.ofNat 8 n) else none

/-- All of a list's answers, or none. -/
def asmAll : List (Option Byte) → Option (List Byte)
  | [] => some []
  | none :: _ => none
  | some b :: rest => (asmAll rest).map (b :: ·)

/-- The bytes of an ASCII string after its opening quote (30_encoding.md R69). -/
def asmString : List Char → Option (List Byte)
  | [] => none
  | ['"'] => some []
  | c :: cs =>
    if c = '"' then none
    else if c.toNat < 128 then (asmString cs).map (BitVec.ofNat 8 c.toNat :: ·)
    else none

/-- The operands of `update`, `absorb` and `hash`: none, bytes between commas, or one ASCII string. -/
def asmOperands (cs : List Char) : Option (List Byte) :=
  match asmTrim cs with
  | [] => some []
  | '"' :: rest => asmString rest
  | trimmed => asmAll ((asmSplit ',' trimmed).map asmByte)

/-- `.cw`'s operand: `0x` and exactly 20 hexadecimal digits (30_encoding.md R68). -/
def asmWord (cs : List Char) : Option CommandWord :=
  match asmTrim cs with
  | '0' :: 'x' :: ds => if ds.length = 20 then (asmNumber hexDigit 16 0 ds).map (BitVec.ofNat 80) else none
  | _ => none

/-- A line's mnemonic and what stands after it. -/
def asmMnemonic (cs : List Char) : List Char × List Char :=
  ((asmTrim cs).takeWhile (fun c => !asmBlank c), (asmTrim cs).dropWhile (fun c => !asmBlank c))

/-- One line of text as a command or pseudo-instruction (30_encoding.md R68, R69); a line with no command is none. -/
def parseLine (cs : List Char) : Option AsmLine :=
  let mnemonic := (asmMnemonic (asmCode false cs)).1
  let operands := (asmMnemonic (asmCode false cs)).2
  if mnemonic = ['i', 'n', 'i', 't'] then
    if asmTrim operands = [] then some .init else none
  else if mnemonic = ['f', 'i', 'n', 'a', 'l'] then
    if asmTrim operands = [] then some .final else none
  else if mnemonic = ['u', 'p', 'd', 'a', 't', 'e'] then (asmOperands operands).map .update
  else if mnemonic = ['a', 'b', 's', 'o', 'r', 'b'] then (asmOperands operands).map .absorb
  else if mnemonic = ['h', 'a', 's', 'h'] then (asmOperands operands).map .hash
  else if mnemonic = ['.', 'c', 'w'] then (asmWord operands).map .cw
  else none

/-- The command words of one line of text: no word for a blank line or a comment alone. -/
def assembleLine (cs : List Char) : Option (List CommandWord) :=
  if asmTrim (asmCode false cs) = [] then some []
  else match parseLine cs with
    | none => none
    | some line => assemble line

/-- The command words of the lines in order, or none where a line is not of the syntax. -/
def assembleLines : List (List Char) → Option (List CommandWord)
  | [] => some []
  | l :: ls =>
    match assembleLine l with
    | none => none
    | some words => (assembleLines ls).map (words ++ ·)

/-- The command words of a whole text (30_encoding.md R68). -/
def assembleText (text : List Char) : Option (List CommandWord) := assembleLines (asmSplit '\n' text)

end Sys2Proof
end

