-- ==== Sys2Proof/Machine/Forms.lean ====
section
/-! DEFINITION. The equivalent forms the spec gives of the absorb step and the digest: the lane-split form
(40_update.md R83), the source's own reversed-lane hasher with its unbounded shift and length (R84, R85), the closed
form (R86), the beat reduction (R88), the lane-wise digest (41_finalize.md R111). Statements say that they agree. -/

namespace Sys2Proof.Machine

/-- `lane(k) <- lane(k) XOR v` (40_update.md R83). -/
def xorLane (acc : Word160) (k : Nat) (v : Byte) : Word160 := acc ^^^ ((v.zeroExtend 160) <<< (8 * k))

/-- The lane-split form of ABSORB's write to ACC, for any running shift `s` (40_update.md R83, R85): the low part to
lane `(s / 8) mod 20`, and the high part, where there is one, to the next lane circularly. -/
def laneSplit (acc : Word160) (s : Nat) (b : Byte) : Word160 :=
  if s % 8 = 0 then xorLane acc ((s / 8) % 20) (b <<< (s % 8))
  else xorLane (xorLane acc ((s / 8) % 20) (b <<< (s % 8))) ((s / 8 + 1) % 20) (b >>> (8 - s % 8))

/-- The source's own per-byte hasher: 20 internal lanes in reversed order, a running shift and a length that grow
without bound (40_update.md R84, R85; 10_state.md R22). -/
structure SourceHasher where
  lanes : Vector Byte 20
  shift : Nat
  length : Nat
deriving DecidableEq, Repr

/-- The source's `new()` (42_lifecycle.md R130). -/
def SourceHasher.new : SourceHasher := { lanes := Vector.replicate 20 0#8, shift := 0, length := 0 }

/-- XOR a byte into internal lane `19 - (k mod 20)` (40_update.md R84). -/
def SourceHasher.xorInto (lanes : Vector Byte 20) (k : Nat) (v : Byte) : Vector Byte 20 :=
  lanes.set (19 - k % 20) (lanes[19 - k % 20] ^^^ v)

/-- The source's per-byte step (40_update.md R83, R84). -/
def SourceHasher.absorb (h : SourceHasher) (b : Byte) : SourceHasher :=
  { lanes :=
      if h.shift % 8 = 0 then SourceHasher.xorInto h.lanes (h.shift / 8) (b <<< (h.shift % 8))
      else SourceHasher.xorInto (SourceHasher.xorInto h.lanes (h.shift / 8) (b <<< (h.shift % 8)))
        (h.shift / 8 + 1) (b >>> (8 - h.shift % 8))
    shift := h.shift + Config.shiftQuantum
    length := h.length + 1 }

/-- The source's `update(state, bytes)`, for any number of bytes (40_update.md R80). -/
def SourceHasher.update (h : SourceHasher) (bytes : List Byte) : SourceHasher := bytes.foldl SourceHasher.absorb h

/-- Byte `j` of a number, the least significant first. -/
def byteOfNat (n j : Nat) : Byte := BitVec.ofNat 8 (n / 2 ^ (8 * j))

/-- The source's `finalize`: the internal lanes reversed, and the length as an 8-byte little-endian integer XORed into
bytes 12 to 19 (41_finalize.md R111; 40_update.md R84). -/
def SourceHasher.finalize (h : SourceHasher) : List Byte :=
  (List.range Config.digestBytes).map fun k =>
    if k < Config.lenFoldOffset then h.lanes.toList.reverse.getD k 0#8
    else h.lanes.toList.reverse.getD k 0#8 ^^^ byteOfNat h.length (k - Config.lenFoldOffset)

/-- The QuickXorHash digest of a whole message by the source's own algorithm. -/
def SourceHasher.digest (bytes : List Byte) : List Byte := (SourceHasher.new.update bytes).finalize

/-- `XOR over j of rotl_160(zext_160(byte(j)), (s + 11·j) mod 160)`, the bytes numbered from `j` on: the closed form
with `s = 0` and `j = 0` (40_update.md R86), and the beat reduction at SHIFT `s` (R88). -/
def xorReduce (s : Nat) : Nat → List Byte → Word160
  | _, [] => 0#160
  | j, b :: bs => routed b ((s + Config.shiftQuantum * j) % 160) ^^^ xorReduce s (j + 1) bs

/-- The same reduction with OR in place of XOR (40_update.md R88). -/
def orReduce (s : Nat) : Nat → List Byte → Word160
  | _, [] => 0#160
  | j, b :: bs => routed b ((s + Config.shiftQuantum * j) % 160) ||| orReduce s (j + 1) bs

end Sys2Proof.Machine
end

