-- ==== Sys2Proof/Machine/Platform.lean ====
section
/-! DEFINITION. Several QXH-CORE instances on one platform: they share nothing (60_exceptions.md R148). -/

namespace Sys2Proof.Machine

/-- What comes of a step of instance `k`: the platform with that instance's next state, or the instance's stop; where
the platform has no instance `k`, nothing happens. DESIGN CHOICE: all instances have the same CMD_QUEUE_DEPTH and the
same power-up values, the constants of Config; the spec fixes neither per platform nor per instance. Log entry 8. -/
def platformStep (instances : List State) (k : Nat) : Host.Outcome (List State) Fault Refusal :=
  match instances[k]? with
  | none => .next instances
  | some s =>
    match step s with
    | .next t => .next (instances.set k t)
    | .fault r => .fault r
    | .refused r => .refused r

end Sys2Proof.Machine
end

