-- ==== Sys2Proof/Safety.lean ====
section
/-! DEFINITION. What counts as a good state and a good response: the terms the statements use. -/

namespace Sys2Proof.Machine

/-- A response word as a conforming device emits it: CODE and PHASE below 3, bits 7..4 zero, and a DIGEST of zero unless
it answers a legal FINAL (30_encoding.md R66, R67; 10_state.md R24). -/
def conformingResponse (r : ResponseWord) : Bool :=
  rspCode r ≠ 3#2 && rspPhase r ≠ 3#2 && rspZero r = 0#4 &&
    (rspDigest r = 0#160 || (rspCode r = okCode && rspPhase r = Phase.finalized.bits))

/-- The interface invariant: every waiting response is conforming (30_encoding.md R66), at most CMD_QUEUE_DEPTH of them
wait (R71), none waits before or during reset (70_reset_and_hazards.md R161, R162), and the newest one shows the PHASE
the instance is in (30_encoding.md R66; 10_state.md R24). -/
structure GoodInterface (s : State) : Prop where
  conforming : ∀ r ∈ s.responses, conformingResponse r = true
  withinDepth : s.responses.length ≤ Config.commandsAhead + 1
  emptyInReset : s.resetStatus ≠ .released → s.responses = []
  newestShowsPhase : ∀ r, s.responses.getLast? = some r → rspPhase r = s.phase.bits

/-- Two instances, of either variant each, that no command sequence and no host tells apart: the same ACC, SHIFT, LEN
and PHASE and the same interface (10_state.md R28, R29; 40_update.md R95). -/
structure Agree (s u : State) : Prop where
  acc : s.acc = u.acc
  shift : s.shift = u.shift
  len : s.len = u.len
  phase : s.phase = u.phase
  resetStatus : s.resetStatus = u.resetStatus
  commands : s.commands = u.commands
  responses : s.responses = u.responses
  inputs : s.inputs = u.inputs
  lastResponse : s.lastResponse = u.lastResponse

/-- The hash state of two instances is the same: ACC, SHIFT and LEN, PHASE apart (40_update.md R87). -/
structure SameHash (s u : State) : Prop where
  acc : s.acc = u.acc
  shift : s.shift = u.shift
  len : s.len = u.len

/-- The interface but for the response channel is untouched, and so is the variant: what every command leaves alone. -/
structure SameInterface (s t : State) : Prop where
  variant : t.variant = s.variant
  resetStatus : t.resetStatus = s.resetStatus
  commands : t.commands = s.commands
  inputs : t.inputs = s.inputs
  lastResponse : t.lastResponse = s.lastResponse

/-- The input stream a sequence of command words carries: the bytes of its UPDATEs in order, or none where a word is no
legal UPDATE (40_update.md R87). -/
def streamOf : List CommandWord → Option (List Byte)
  | [] => some []
  | cw :: rest =>
    match decode cw with
    | .ok (.update bytes) => (streamOf rest).map (bytes ++ ·)
    | .ok .init => none
    | .ok .final => none
    | .error _ => none

/-- The word is legal (30_encoding.md R65). -/
def legalWord (cw : CommandWord) : Bool :=
  match decode cw with
  | .ok _ => true
  | .error _ => false

/-- The word is a legal FINAL (41_finalize.md R110). -/
def finalWord (cw : CommandWord) : Bool :=
  match decode cw with
  | .ok .final => true
  | .ok .init => false
  | .ok (.update _) => false
  | .error _ => false

/-- What a host does to have one command executed: issue the word, let the block run, take the response
(30_encoding.md R71). -/
def handshake (cw : CommandWord) : List HostAction := [.issue cw, .wait, .take]

/-- The action is the host's putting a command word on its channel. -/
def HostAction.isIssue : HostAction → Bool
  | .issue _ => true
  | .issueByOther _ => false
  | .take => false
  | .assertReset => false
  | .releaseReset => false
  | .wait => false

/-- The run is over: the host has taken the response of the last command it issued (30_encoding.md R71). No command or
response is in flight, the last one to leave was taken and not discarded, and the host has none left to issue. A run
whose last response reset discarded, or with no command, is not over. DEDUCED: log entry 16. -/
def runIsOver (s : State) : Bool :=
  s.commands.isEmpty && s.responses.isEmpty && s.lastResponse = .taken && !s.inputs.any HostAction.isIssue

/-- The bits of ACC a byte absorbed at SHIFT `s` can touch (40_update.md R88). -/
def footprint (s : Nat) : Word160 := routed 0xFF#8 s

end Sys2Proof.Machine
end

