-- ==== Sys2Proof/Certificates/Slice0/Obligations.lean ====
section
/-! DEFINITION. The statements for the provers, from the numbered rules of spec/. -/

open Sys2Proof Sys2Proof.Machine

/-! ## Encoding -/

/-- Words written out from the encodings of 30_encoding.md R60 and R61 (the beats and illegal words of
95_test_vectors.md) decode to what they stand for. -/
def Obligations.WrittenWordsDecode : Prop :=
  decode 0x00000000000000000001#80 = .ok .init ∧
  decode 0xFFFFFFFFFFFFFFFF0001#80 = .ok .init ∧
  decode 0x08070605040302010082#80 = .ok (.update [1#8, 2#8, 3#8, 4#8, 5#8, 6#8, 7#8, 8#8]) ∧
  decode 0xEEDDCCBBAA0302010032#80 = .ok (.update [1#8, 2#8, 3#8]) ∧
  decode 0x00000000000000000002#80 = .ok (.update []) ∧
  decode 0x00000000000000000003#80 = .ok .final ∧
  decode 0x00000000000000000000#80 = .error .illegalOpc ∧
  decode 0x08070605040302010092#80 = .error .illegalField ∧
  decode 0x000000000000000001F5#80 = .error .illegalOpc

/-- Decoding what the encoder writes gives the instruction back, for every well-formed instruction with every operand
value (30_encoding.md R60 to R65, R68). -/
def Obligations.DecodeUndoesEncode : Prop :=
  ∀ i : Instr, i.wellFormed = true → decode (encode i) = .ok i

/-- The decoder of 30_encoding.md R65, said by arithmetic on the word as a number: which words are INIT, FINAL, UPDATE
with which bytes, and which are illegal with which code. -/
def Obligations.DecoderReadsEveryWord : Prop :=
  ∀ cw : CommandWord,
    (decode cw = .ok .init ↔ cw.toNat % 65536 = 1) ∧
    (decode cw = .ok .final ↔ cw.toNat % 65536 = 3) ∧
    (∀ bytes : List Byte, decode cw = .ok (.update bytes) ↔
      (cw.toNat % 16 = 2 ∧ cw.toNat / 256 % 256 = 0 ∧ cw.toNat / 16 % 16 ≤ 8 ∧
        bytes = (List.range (cw.toNat / 16 % 16)).map fun j => BitVec.ofNat 8 (cw.toNat / 2 ^ (8 * j + 16)))) ∧
    (decode cw = .error .illegalOpc ↔ (cw.toNat % 16 ≠ 1 ∧ cw.toNat % 16 ≠ 2 ∧ cw.toNat % 16 ≠ 3)) ∧
    (decode cw = .error .illegalField ↔
      ((cw.toNat % 16 = 1 ∨ cw.toNat % 16 = 2 ∨ cw.toNat % 16 = 3) ∧
        (cw.toNat / 256 % 256 ≠ 0 ∨
          (cw.toNat % 16 = 2 ∧ 8 < cw.toNat / 16 % 16) ∨
          (cw.toNat % 16 ≠ 2 ∧ cw.toNat / 16 % 16 ≠ 0))))

/-- Two command words with one header, which for UPDATE agree on the bytes below CNT, give the same next state and
response: the other DATA bytes have no effect, nor has any DATA of INIT and FINAL (40_update.md R90; 30_encoding.md
R64). -/
def Obligations.IgnoredBytesHaveNoEffect : Prop :=
  ∀ (cw cw' : CommandWord) (s : State), cw.toNat % 65536 = cw'.toNat % 65536 →
    (cwOpc cw = 0x2#4 → ∀ j, j < (cwCnt cw).toNat → dataByte (cwData cw) j = dataByte (cwData cw') j) →
    executeWord cw s = executeWord cw' s

/-- What the decoder reads is well formed, and the word the encoder writes for it executes alike (30_encoding.md R62,
R65, R68). -/
def Obligations.DecodedWordsAreWellFormed : Prop :=
  ∀ (cw : CommandWord) (i : Instr), decode cw = .ok i →
    i.wellFormed = true ∧ ∀ s : State, executeWord (encode i) s = executeWord cw s

/-! ## The absorb step and its equivalent forms -/

/-- ABSORB, in an instance of either variant (40_update.md R82; 20_memory.md R45): ACC, bit by bit and as a rotation,
SHIFT, LEN, and nothing else. -/
def Obligations.AbsorbRoutesTheByte : Prop :=
  ∀ (s : State) (b : Byte),
    (s.absorb b).acc = s.acc ^^^ (b.zeroExtend 160).rotateLeft s.shift.val ∧
    (∀ t, t < 8 → (s.absorb b).acc.getLsbD ((s.shift.val + t) % 160) =
      (s.acc.getLsbD ((s.shift.val + t) % 160) ^^ b.getLsbD t)) ∧
    (∀ p, p < 160 → (∀ t, t < 8 → p ≠ (s.shift.val + t) % 160) → (s.absorb b).acc.getLsbD p = s.acc.getLsbD p) ∧
    (s.absorb b).shift.val = (s.shift.val + 11) % 160 ∧
    (s.absorb b).len.toNat = (s.len.toNat + 1) % 2 ^ 64 ∧
    (s.absorb b).phase = s.phase ∧ (s.absorb b).responses = s.responses ∧ SameInterface s (s.absorb b)

/-- The lane-split form changes ACC exactly as the rotation does: the low part goes to lane q, the high part, where
there is one, to the next lane circularly, and no other lane changes (40_update.md R83). -/
def Obligations.LaneSplitAgreesWithRotation : Prop :=
  ∀ (acc : Word160) (s : Nat) (b : Byte), s < 160 →
    laneSplit acc s b = acc ^^^ routed b s ∧
    lane (acc ^^^ routed b s) (s / 8) = lane acc (s / 8) ^^^ (b <<< (s % 8)) ∧
    (s % 8 ≠ 0 → lane (acc ^^^ routed b s) ((s / 8 + 1) % 20) = lane acc ((s / 8 + 1) % 20) ^^^ (b >>> (8 - s % 8))) ∧
    (∀ k, k < 20 → k ≠ s / 8 → (s % 8 = 0 ∨ k ≠ (s / 8 + 1) % 20) → lane (acc ^^^ routed b s) k = lane acc k)

/-- The source's unbounded running shift and SHIFT modulo 160 give the same lanes and the same rotation
(40_update.md R85). -/
def Obligations.UnboundedShiftAgrees : Prop :=
  ∀ (s : Nat) (v : Word160),
    (s / 8) % 20 = (s % 160) / 8 ∧ s % 8 = (s % 160) % 8 ∧
    v.rotateLeft s = rotl160 v (s % 160) ∧
    ∀ (acc : Word160) (b : Byte), laneSplit acc s b = acc ^^^ routed b (s % 160)

/-- SHIFT visits every value once in 160 bytes, returns to its value after 160 bytes and not before, and byte i of a
stream is lane-aligned, touching one lane, exactly when i is a multiple of 8; else it touches two (40_update.md R92). -/
def Obligations.ShiftHasPeriod160 : Prop :=
  (∀ (s : State) (v : Fin 160), ∃ k, k < 160 ∧
    (∀ bytes : List Byte, bytes.length = k → (s.absorbAll bytes).shift = v) ∧
    ∀ bytes : List Byte, bytes.length < 160 → (s.absorbAll bytes).shift = v → bytes.length = k) ∧
  (∀ (s : State) (bytes : List Byte), bytes.length = 160 → (s.absorbAll bytes).shift = s.shift) ∧
  (∀ (s : State) (bytes : List Byte), 0 < bytes.length → bytes.length < 160 → (s.absorbAll bytes).shift ≠ s.shift) ∧
  (∀ i : Nat, (11 * i % 160) % 8 = 0 ↔ i % 8 = 0) ∧
  (∀ i : Nat, i % 8 = 0 → ∃ q, q < 20 ∧ lane (footprint (11 * i % 160)) q ≠ 0#8 ∧
    ∀ k, k < 20 → k ≠ q → lane (footprint (11 * i % 160)) k = 0#8) ∧
  (∀ i : Nat, i % 8 ≠ 0 → ∃ q, q < 20 ∧ lane (footprint (11 * i % 160)) q ≠ 0#8 ∧
    lane (footprint (11 * i % 160)) ((q + 1) % 20) ≠ 0#8 ∧
    ∀ k, k < 20 → k ≠ q → k ≠ (q + 1) % 20 → lane (footprint (11 * i % 160)) k = 0#8)

/-- The wrap-around corner: byte i splits across lane 19 and lane 0, and touches no other lane, exactly when its shift
is 153 or more; in the first period these are the positions 14, 29, 43, 58, 87, 116 and 145, with the shifts the rule
lists; position 72 stays in lane 19 alone; and 0xFF after 145 zero bytes leaves lane 19 = 0xF8 and lane 0 = 0x07
(40_update.md R96). -/
def Obligations.WrapAroundCorner : Prop :=
  (∀ i, i < 160 → (153 ≤ 11 * i % 160 ↔ i ∈ [14, 29, 43, 58, 87, 116, 145])) ∧
  [14, 29, 43, 58, 87, 116, 145].map (fun i => 11 * i % 160) = [154, 159, 153, 158, 157, 156, 155] ∧
  (∀ i : Nat, 153 ≤ 11 * i % 160 ↔
    (lane (footprint (11 * i % 160)) 19 ≠ 0#8 ∧ lane (footprint (11 * i % 160)) 0 ≠ 0#8)) ∧
  (∀ i k : Nat, 153 ≤ 11 * i % 160 → 0 < k → k < 19 → lane (footprint (11 * i % 160)) k = 0#8) ∧
  11 * 72 % 160 = 152 ∧ lane (footprint 152) 19 = 0xFF#8 ∧ (∀ k, k < 19 → lane (footprint 152) k = 0#8) ∧
  (∀ v : Variant,
    lane ((State.resetOf v).absorbAll (List.replicate 145 0x00#8 ++ [0xFF#8])).acc 19 = 0xF8#8 ∧
    lane ((State.resetOf v).absorbAll (List.replicate 145 0x00#8 ++ [0xFF#8])).acc 0 = 0x07#8)

/-- LEN wraps modulo 2^64, SHIFT goes on regardless, and after the wrap SHIFT is no longer (11 · LEN) mod 160
(40_update.md R91). -/
def Obligations.LengthWrapsAndShiftGoesOn : Prop :=
  ∀ (s : State) (b : Byte), s.len = 0xFFFFFFFFFFFFFFFF#64 →
    (s.absorb b).len = 0#64 ∧ (s.absorb b).shift.val = (s.shift.val + 11) % 160 ∧
    (s.shift.val = (11 * s.len.toNat) % 160 → (s.absorb b).shift.val ≠ (11 * (s.absorb b).len.toNat) % 160)

/-- UPDATE's loop is the parallel XOR reduction, in either variant; a beat's routed bytes are bit-disjoint, so OR may
combine them; 14 consecutive bytes are disjoint and the 15th overlaps the first (40_update.md R88). -/
def Obligations.BeatIsParallelReduction : Prop :=
  (∀ (s : State) (bytes : List Byte),
    (s.absorbAll bytes).acc = s.acc ^^^ xorReduce s.shift.val 0 bytes ∧
    (s.absorbAll bytes).shift.val = (s.shift.val + 11 * bytes.length) % 160 ∧
    (s.absorbAll bytes).len = s.len + BitVec.ofNat 64 bytes.length) ∧
  (∀ (s : Nat) (bytes : List Byte), bytes.length ≤ 8 → xorReduce s 0 bytes = orReduce s 0 bytes) ∧
  (∀ (s i j : Nat) (b c : Byte), i < j → j < i + 14 →
    routed b ((s + 11 * i) % 160) &&& routed c ((s + 11 * j) % 160) = 0#160) ∧
  (∀ s : Nat, footprint (s % 160) &&& footprint ((s + 11 * 14) % 160) ≠ 0#160)

/-! ## UPDATE -/

/-- UPDATE completes for every list of bytes in every state of either variant: the bytes are XORed in at their
shifts, SHIFT and LEN advance by the count, PHASE is ACTIVE, one OK response with a zero digest, and nothing else
changes (40_update.md R81, R88). The spec gives UPDATE 0 to 8 bytes; that `exec` takes a longer list, which no
command word decodes to, and absorbs all of it is the model's choice: log entry 13. -/
def Obligations.UpdateCompletes : Prop :=
  ∀ (bytes : List Byte) (s : State), ∃ t, exec (.update bytes) s = .next t ∧
    t.acc = s.acc ^^^ xorReduce s.shift.val 0 bytes ∧
    t.shift.val = (s.shift.val + 11 * bytes.length) % 160 ∧
    t.len = s.len + BitVec.ofNat 64 bytes.length ∧
    t.phase = .active ∧
    t.responses = s.responses ++ [responseWord 0#2 .active 0#160] ∧
    SameInterface s t

/-- UPDATE with CNT = 0 changes only PHASE, and answers OK (40_update.md R89). That BUF, ACCB and CUR of a BLOCK
instance are unchanged too is the model's arrangement: log entry 2. -/
def Obligations.EmptyUpdateSetsPhaseOnly : Prop :=
  ∀ s : State, exec (.update []) s =
    .next { s with phase := .active, responses := s.responses ++ [responseWord 0#2 .active 0#160] }

/-- The state after the byte sequence, absorbed since INIT (from any state) or reset, in any split into UPDATE words and
in either variant, is the closed form: byte i is routed by its absolute position (40_update.md R86). -/
def Obligations.ClosedFormOfTheStream : Prop :=
  (∀ (v : Variant) (ws : List CommandWord) (bytes : List Byte), streamOf ws = some bytes →
    ∃ t, executeAll ws (State.resetOf v) = .next t ∧ t.acc = xorReduce 0 0 bytes ∧
      t.len.toNat = bytes.length % 2 ^ 64 ∧ t.shift.val = (11 * bytes.length) % 160) ∧
  (∀ (s : State) (cw : CommandWord) (ws : List CommandWord) (bytes : List Byte), decode cw = .ok .init →
    streamOf ws = some bytes →
    ∃ t, executeAll (cw :: ws) s = .next t ∧ t.acc = xorReduce 0 0 bytes ∧
      t.len.toNat = bytes.length % 2 ^ 64 ∧ t.shift.val = (11 * bytes.length) % 160)

/-- Chunking-independence: two sequences of UPDATE words that carry the same byte stream, from one state, leave the
same ACC, LEN and SHIFT, those of the closed form over the whole stream, so FINAL gives one digest; and the order of
the bytes matters (40_update.md R87). -/
def Obligations.ChunkingDoesNotMatter : Prop :=
  (∀ (s : State) (ws vs : List CommandWord) (bytes : List Byte),
    streamOf ws = some bytes → streamOf vs = some bytes →
    ∃ t u, executeAll ws s = .next t ∧ executeAll vs s = .next u ∧ SameHash t u ∧
      t.acc = s.acc ^^^ xorReduce s.shift.val 0 bytes ∧ t.len = s.len + BitVec.ofNat 64 bytes.length ∧
      t.shift.val = (s.shift.val + 11 * bytes.length) % 160 ∧
      ∃ t' u', exec .final t = .next t' ∧ exec .final u = .next u' ∧
        (t'.responses.getLast?).map rspDigest = (u'.responses.getLast?).map rspDigest) ∧
  ∀ v : Variant, ((State.resetOf v).absorbAll [0xB5#8, 0xB4#8]).acc ≠ ((State.resetOf v).absorbAll [0xB4#8, 0xB5#8]).acc

/-! ## The block-buffered variant -/

/-- From the same reset state, after the same command words, the BLOCK instance satisfies FOLD(ACCB XOR BUF) = ACC,
(11 · CUR) mod 160 = SHIFT and LEN equal, and every response word is identical (40_update.md R95). -/
def Obligations.BlockVariantMatchesPerByte : Prop :=
  ∀ ws : List CommandWord, ∃ t u acc shift buf accb cur,
    executeAll ws (State.resetOf .perByte) = .next t ∧ executeAll ws (State.resetOf .block) = .next u ∧
    t.store = .perByte acc shift ∧ u.store = .block buf accb cur ∧
    foldBlock (xorBlock accb buf) = acc ∧ (11 * cur.val) % 160 = shift.val ∧ u.len = t.len ∧ u.phase = t.phase ∧
    u.responses = t.responses

/-- Two instances, of whatever variants, that agree on ACC, SHIFT, LEN, PHASE and interface stay so at every step, and
stop alike: no host can tell the variants apart (10_state.md R28, R29; 40_update.md R95).
The storage of a BLOCK instance is arranged as log entry 2 says, the host's actions as log entry 3 says. -/
def Obligations.AgreementIsABisimulation : Prop :=
  ∀ s u : State, Agree s u →
    (∀ t, step s = .next t → ∃ w, step u = .next w ∧ Agree t w ∧ t.variant = s.variant ∧ w.variant = u.variant) ∧
    (∀ f, step s = .fault f → step u = .fault f) ∧
    (∀ r, step s = .refused r → step u = .refused r)

/-- FOLD is linear over XOR, and position j receives shift (11·j) mod 160 (40_update.md R94). -/
def Obligations.FoldIsLinear : Prop :=
  (∀ x y : Vector Byte 160, foldBlock (xorBlock x y) = foldBlock x ^^^ foldBlock y) ∧
  (∀ x : Vector Byte 160, foldBlock x = xorReduce 0 0 x.toList)

/-- The cursor of a BLOCK instance is recovered from SHIFT: CUR = (131 · SHIFT) mod 160 (10_state.md R28). -/
def Obligations.CursorFromShift : Prop :=
  ∀ (buf accb : Vector Byte 160) (cur : Fin 160),
    (HashStore.block buf accb cur).shift.val = (11 * cur.val) % 160 ∧
    cur.val = (131 * (HashStore.block buf accb cur).shift.val) % 160

/-! ## FINAL -/

/-- FINAL completes in every state of either variant: only PHASE and the response channel change, and the response
carries ACC with LEN folded little-endian into digest bytes 12 to 19, bytes 0 to 11 the lanes unchanged
(41_finalize.md R111, R112, R113; 20_memory.md R44). That BUF, ACCB and CUR of a BLOCK instance are unchanged, where
R114 requires only that they still give ACC and SHIFT, is the model's arrangement: log entry 2. -/
def Obligations.FinalReturnsTheDigest : Prop :=
  ∀ s : State, ∃ r, exec .final s = .next { s with phase := .finalized, responses := s.responses ++ [r] } ∧
    rspCode r = 0#2 ∧ rspPhase r = 2#2 ∧ rspZero r = 0#4 ∧
    rspDigest r = s.acc ^^^ ((s.len.zeroExtend 160) <<< 96) ∧
    (∀ k, k < 12 → rspDigestByte r k = lane s.acc k) ∧
    (∀ j, j < 8 → rspDigestByte r (12 + j) = lane s.acc (12 + j) ^^^ s.len.extractLsb' (8 * j) 8)

/-- FINAL is idempotent and non-destructive: with only FINALs and illegal words between them, two FINALs return the
same DIGEST, and ACC, LEN and SHIFT are as before the first (41_finalize.md R113). That the storage is the same
field by field, BUF, ACCB and CUR of a BLOCK instance with it, where R114 requires only that they still give ACC and
SHIFT, is the model's arrangement: log entry 2. -/
def Obligations.FinalIsIdempotent : Prop :=
  ∀ (s : State) (ws : List CommandWord), (∀ cw ∈ ws, finalWord cw = true ∨ legalWord cw = false) →
    ∃ t u w, exec .final s = .next t ∧ executeAll ws t = .next u ∧ exec .final u = .next w ∧
      w.store = s.store ∧ w.len = s.len ∧ SameHash s w ∧
      ∃ r r', t.responses = s.responses ++ [r] ∧ w.responses = u.responses ++ [r'] ∧ rspDigest r = rspDigest r'

/-- A command sequence and the same sequence with its FINALs removed leave the same ACC, LEN and SHIFT: UPDATE after
FINAL continues the stream (41_finalize.md R116). That the storage is the same field by field, BUF, ACCB and CUR of
a BLOCK instance with it, rests on FINAL using no scratch storage, the model's arrangement: log entry 2. -/
def Obligations.RemovingFinalsKeepsTheHash : Prop :=
  ∀ (s : State) (ws : List CommandWord), ∃ t u, executeAll ws s = .next t ∧
    executeAll (ws.filter fun cw => !finalWord cw) s = .next u ∧ t.store = u.store ∧ SameHash t u

/-- FINAL on the reset state, or right after INIT in any state, returns 20 zero bytes (41_finalize.md R117). -/
def Obligations.FinalOfNothingIsZero : Prop :=
  (∀ v : Variant, ∃ t r, exec .final (State.resetOf v) = .next t ∧ t.responses = [r] ∧
    rspDigest r = 0#160 ∧ digestBytes (rspDigest r) = List.replicate 20 0#8) ∧
  (∀ s : State, ∃ t u r, exec .init s = .next t ∧ exec .final t = .next u ∧ u.responses = t.responses ++ [r] ∧
    rspDigest r = 0#160 ∧ digestBytes (rspDigest r) = List.replicate 20 0#8)

/-- Two states with one ACC and different LEN give different digests, which differ in bytes 12 to 19 by the XOR of the
LENs; bytes 0 to 11 are the same (41_finalize.md R118). -/
def Obligations.LengthSeparatesDigests : Prop :=
  ∀ s u : State, s.acc = u.acc → s.len ≠ u.len →
    digestOf s.acc s.len ≠ digestOf u.acc u.len ∧
    (∀ k, k < 12 → lane (digestOf s.acc s.len) k = lane (digestOf u.acc u.len) k) ∧
    (∀ j, j < 8 → lane (digestOf s.acc s.len) (12 + j) ^^^ lane (digestOf u.acc u.len) (12 + j) =
      (s.len ^^^ u.len).extractLsb' (8 * j) 8)

/-- The digest of a whole message is the one the source's own algorithm gives, with its reversed lanes, its unbounded
shift and its unbounded length, for every message, every split into UPDATE words and either variant
(40_update.md R84, R85; 41_finalize.md R111). -/
def Obligations.DigestIsTheSourceAlgorithms : Prop :=
  ∀ (v : Variant) (ws : List CommandWord) (bytes : List Byte), streamOf ws = some bytes →
    ∃ t u r, executeAll ws (State.resetOf v) = .next t ∧ exec .final t = .next u ∧
      u.responses = t.responses ++ [r] ∧ digestBytes (rspDigest r) = SourceHasher.digest bytes

/-! ## INIT -/

/-- INIT completes in every state: ACC, LEN and SHIFT (BUF, ACCB and CUR) 0, PHASE CREATED, one all-zero OK response,
nothing else changed (42_lifecycle.md R130). -/
def Obligations.InitCompletes : Prop :=
  ∀ s : State, ∃ t, exec .init s = .next t ∧
    t = { s with store := HashStore.cleared s.variant, len := 0#64, phase := .created,
                 responses := s.responses ++ [0#168] } ∧
    t.acc = 0#160 ∧ t.shift = 0 ∧ t.variant = s.variant

/-- INIT, legal in any PHASE, discards all earlier input: whatever the state and the variant before it, what comes
after it is the same, response by response, and right after it the hash state is the fresh instance's (42_lifecycle.md
R131). -/
def Obligations.InitDiscardsThePast : Prop :=
  (∀ (s u : State) (cw : CommandWord) (ws : List CommandWord), decode cw = .ok .init →
    ∃ t w rs, executeAll (cw :: ws) s = .next t ∧ executeAll (cw :: ws) u = .next w ∧
      t.responses = s.responses ++ rs ∧ w.responses = u.responses ++ rs ∧ SameHash t w ∧ t.phase = w.phase) ∧
  (∀ s : State, ∃ t, exec .init s = .next t ∧ t.store = (State.resetOf s.variant).store ∧
    t.len = (State.resetOf s.variant).len ∧ t.phase = (State.resetOf s.variant).phase)

/-! ## Illegal commands, responses, phases, order -/

/-- An illegal command word is answered by its code, the unchanged PHASE and a zero digest, and nothing else changes
(60_exceptions.md R142). -/
def Obligations.IllegalWordChangesNothing : Prop :=
  ∀ (cw : CommandWord) (c : IllegalCode) (s : State), decode cw = .error c →
    ∃ r, executeWord cw s = .next { s with responses := s.responses ++ [r] } ∧
      (c = .illegalOpc → rspCode r = 1#2) ∧ (c = .illegalField → rspCode r = 2#2) ∧
      rspPhase r = s.phase.bits ∧ rspZero r = 0#4 ∧ rspDigest r = 0#160

/-- A command sequence and the same sequence with its illegal words removed leave the same hash state and PHASE: the
next command executes normally (60_exceptions.md R142, R144). -/
def Obligations.IllegalWordsAreTransparent : Prop :=
  ∀ (s : State) (ws : List CommandWord), ∃ t u, executeAll ws s = .next t ∧
    executeAll (ws.filter legalWord) s = .next u ∧ t.store = u.store ∧ t.len = u.len ∧ t.phase = u.phase

/-- The response word as a number, and its digest bytes at RSP[8k+15:8k+8] (30_encoding.md R66). -/
def Obligations.ResponseWordLayout : Prop :=
  ∀ (code : BitVec 2) (p : Phase) (d : Word160),
    (responseWord code p d).toNat = d.toNat * 256 + p.bits.toNat * 4 + code.toNat ∧
    (∀ k, k < 20 → rspDigestByte (responseWord code p d) k = lane d k)

/-- For every command word, legal or illegal, exactly one response is emitted, last on the channel: its CODE says
whether the word was legal, its PHASE is the PHASE after the command, bits 7..4 are 0, and its DIGEST is the digest for
a legal FINAL and zero for every other command (30_encoding.md R66, R67). -/
def Obligations.OneResponsePerCommand : Prop :=
  ∀ (cw : CommandWord) (s : State), ∃ t r, executeWord cw s = .next t ∧ t.responses = s.responses ++ [r] ∧
    rspPhase r = t.phase.bits ∧ rspPhase r ≠ 3#2 ∧ rspZero r = 0#4 ∧ rspCode r ≠ 3#2 ∧
    (rspCode r = 0#2 ↔ legalWord cw = true) ∧
    (rspCode r = 1#2 ↔ decode cw = .error .illegalOpc) ∧
    (rspCode r = 2#2 ↔ decode cw = .error .illegalField) ∧
    (finalWord cw = true → rspDigest r = t.acc ^^^ ((t.len.zeroExtend 160) <<< 96)) ∧
    (finalWord cw = false → rspDigest r = 0#160) ∧
    (∀ k, k < 20 → rspDigestByte r k = lane (rspDigest r) k) ∧
    SameInterface s t

/-- Commands execute one at a time in order: a sequence gives one response per word, in the order of the words, and the
k-th is the response of the k-th word executed on the state the first k left (20_memory.md R49). -/
def Obligations.ResponsesComeInCommandOrder : Prop :=
  ∀ (ws : List CommandWord) (s : State), ∃ t rs, executeAll ws s = .next t ∧
    t.responses = s.responses ++ rs ∧ rs.length = ws.length ∧
    ∀ (k : Nat) (h : k < ws.length), ∃ u w, executeAll (ws.take k) s = .next u ∧ executeWord ws[k] u = .next w ∧
      u.responses = s.responses ++ rs.take k ∧ w.responses = s.responses ++ rs.take (k + 1)

/-- PHASE after each command, whatever it was before: INIT gives CREATED, UPDATE ACTIVE, FINAL FINALIZED, and an illegal
word leaves it (10_state.md R24; 42_lifecycle.md R132). -/
def Obligations.PhaseFollowsTheCommand : Prop :=
  ∀ (cw : CommandWord) (s : State), ∃ t, executeWord cw s = .next t ∧
    (decode cw = .ok .init → t.phase = .created) ∧
    (∀ bytes, decode cw = .ok (.update bytes) → t.phase = .active) ∧
    (decode cw = .ok .final → t.phase = .finalized) ∧
    (∀ c, decode cw = .error c → t.phase = s.phase)

/-- PHASE gates nothing: two states that differ in PHASE alone run every command sequence alike, to the same ACC,
LEN and SHIFT, with the same CODE and DIGEST in every response (10_state.md R24). That BUF, ACCB and CUR of a BLOCK
instance are the same too is the model's arrangement: log entry 2. -/
def Obligations.PhaseGatesNothing : Prop :=
  ∀ (s : State) (p : Phase) (ws : List CommandWord), ∃ t u rs rs',
    executeAll ws s = .next t ∧ executeAll ws { s with phase := p } = .next u ∧
    t.store = u.store ∧ t.len = u.len ∧
    t.responses = s.responses ++ rs ∧ u.responses = s.responses ++ rs' ∧
    rs.map rspCode = rs'.map rspCode ∧ rs.map rspDigest = rs'.map rspDigest

/-! ## The step, the host interface and reset -/

/-- A step runs the decoded instruction: with the host idle or waiting, reset released and room for a response, a step
is `exec` of the instruction the oldest command word decodes to, on the state with that word (and the wait) gone
(00_scope.md R11; 30_encoding.md R71).
That the word is accepted in that very step is the model's choice: log entry 4. -/
def Obligations.StepRunsTheDecodedInstruction : Prop :=
  ∀ (s : State) (cw : CommandWord) (rest : List CommandWord) (i : Instr),
    s.commands = cw :: rest → decode cw = .ok i → s.resetStatus = .released →
    s.responses.length < Config.commandsAhead + 1 →
    (s.inputs = [] → step s = exec i { s with commands := rest }) ∧
    (∀ more, s.inputs = .wait :: more → step s = exec i { s with commands := rest, inputs := more })

/-- A step answers an illegal command word: the same, with the illegal command raised (60_exceptions.md R142).
That the word is accepted in that very step is the model's choice: log entry 4. -/
def Obligations.StepAnswersAnIllegalWord : Prop :=
  ∀ (s : State) (cw : CommandWord) (rest : List CommandWord) (c : IllegalCode),
    s.commands = cw :: rest → decode cw = .error c → s.resetStatus = .released →
    s.responses.length < Config.commandsAhead + 1 →
    (s.inputs = [] → step s = .next (State.raiseIllegal { s with commands := rest } c)) ∧
    (∀ more, s.inputs = .wait :: more → step s = .next (State.raiseIllegal { s with commands := rest, inputs := more } c))

/-- What the host's own actions do, and that the block waits: issuing appends to the command channel, taking removes
the oldest response, and with CMD_QUEUE_DEPTH responses waiting, or with no command, a move of the block changes
nothing (30_encoding.md R71). That issuing and taking are steps of their own and that an idle move leaves the state as
it is, are the model's choice: log entries 3, 4 and 14. The field that keeps what became of the last response is the
model's own: log entry 16. -/
def Obligations.HostActionsAndIdleBlock : Prop :=
  (∀ (s : State) (cw : CommandWord) (more : List HostAction), s.inputs = .issue cw :: more →
    step s = .next { s with commands := s.commands ++ [cw], inputs := more }) ∧
  (∀ (s : State) (r : ResponseWord) (rs : List ResponseWord) (more : List HostAction), s.inputs = .take :: more →
    s.responses = r :: rs → rspCode r ≠ 3#2 → rspPhase r ≠ 3#2 →
    step s = .next { s with responses := rs, inputs := more, lastResponse := .taken }) ∧
  (∀ s : State, s.inputs = [] → s.commands = [] → step s = .next s) ∧
  (∀ s : State, s.inputs = [] → s.resetStatus = .released → Config.commandsAhead + 1 ≤ s.responses.length →
    step s = .next s)

/-- Reset puts every element to its reset value, from any state: ACC, LEN, SHIFT and PHASE in either variant, BUF, ACCB
and CUR in a BLOCK instance; and it is the state INIT produces (70_reset_and_hazards.md R160). -/
def Obligations.ResetValues : Prop :=
  (∀ v : Variant, (State.resetOf v).acc = 0#160 ∧ (State.resetOf v).len = 0#64 ∧ (State.resetOf v).shift = 0 ∧
    (State.resetOf v).phase = .created) ∧
  (∃ buf accb cur, (State.resetOf .block).store = .block buf accb cur ∧
    (∀ j (h : j < 160), buf[j] = 0#8 ∧ accb[j] = 0#8) ∧ cur = 0) ∧
  (∀ s : State, s.assertReset.store = (State.resetOf s.variant).store ∧ s.assertReset.acc = 0#160 ∧
    s.assertReset.len = 0#64 ∧ s.assertReset.shift = 0 ∧ s.assertReset.phase = .created) ∧
  (∀ s : State, ∃ t, exec .init s = .next t ∧ t.store = (State.resetOf s.variant).store ∧ t.len = 0#64 ∧
    t.phase = .created)

/-- Asserting reset discards the commands and responses in flight and emits nothing; while it is asserted the block
accepts no command; after its release a command sees the reset state (70_reset_and_hazards.md R161). That words
issued but not yet accepted are discarded too, and that reset is asserted and released in steps of their own, is the
model's reading: log entries 3 and 6. That the word issued after the release is accepted and executed by the block's
very next move is the model's choice, log entry 4, and so is an idle move's leaving the state as it is: log entry
14. The field that keeps what became of the last response is the model's own: log entry 16. -/
def Obligations.ResetDiscardsWhatIsInFlight : Prop :=
  (∀ (s : State) (more : List HostAction), s.inputs = .assertReset :: more →
    step s = .next { State.resetOf s.variant with
      resetStatus := .asserted
      inputs := more
      lastResponse := if s.commands = [] ∧ s.responses = [] then s.lastResponse else .discarded }) ∧
  (∀ s : State, s.resetStatus = .asserted → s.inputs = [] → step s = .next s) ∧
  (∀ (s : State) (more : List HostAction), s.resetStatus = .asserted → s.inputs = .wait :: more →
    step s = .next { s with inputs := more }) ∧
  (∀ (s : State) (cw : CommandWord), s.inputs = [.assertReset, .releaseReset, .issue cw, .wait] →
    Host.Core.run Sys2Proof.core 4 s = executeWord cw { State.resetOf s.variant with
      lastResponse := if s.commands = [] ∧ s.responses = [] then s.lastResponse else .discarded })

/-- Before the first reset there is no command step: a move of the block with a word waiting stops, and a step that
answers a next state, unless it asserts reset, leaves the hash state alone and emits no response
(70_reset_and_hazards.md R162). That the stop is a fault is the model's form of `stuck`: log entry 5. -/
def Obligations.NoCommandBeforeTheFirstReset : Prop :=
  ∀ s : State, s.resetStatus = .neverReset →
    (s.inputs = [] → s.commands ≠ [] → step s = .fault .beforeFirstReset) ∧
    (∀ t, step s = .next t → s.inputs.head? ≠ some .assertReset →
      t.store = s.store ∧ t.len = s.len ∧ t.phase = s.phase ∧ t.resetStatus = .neverReset ∧
      t.responses.length ≤ s.responses.length)

/-- The interface invariant holds of the machine after reset and after power-up, of either variant. -/
def Obligations.GoodInterfaceAtReset : Prop :=
  GoodInterface State.reset ∧ (∀ v : Variant, GoodInterface (State.resetOf v)) ∧
    ∀ v : Variant, GoodInterface (State.powerUp v)

/-- Every step keeps the interface invariant: waiting responses are conforming, at most CMD_QUEUE_DEPTH, none before or
during reset, the newest showing the current PHASE (30_encoding.md R66, R67, R71; 70_reset_and_hazards.md R161).
The form of a step and of CMD_QUEUE_DEPTH is the model's: log entries 3 and 4. -/
def Obligations.StepKeepsGoodInterface : Prop :=
  ∀ s t : State, GoodInterface s → step s = .next t → GoodInterface t

/-- The machine never stops after its first reset but for a merged second host, given the interface invariant; and a
reset instance is never again one that was not reset (60_exceptions.md R140, R144, R147).
The second host's word as an input is the model's form: log entry 12. -/
def Obligations.NeverStopsAfterReset : Prop :=
  ∀ s : State, GoodInterface s → s.resetStatus ≠ .neverReset →
    (∃ t, step s = .next t ∧ t.resetStatus ≠ .neverReset) ∨
    (step s = .refused .mergedHosts ∧ ∃ cw more, s.inputs = .issueByOther cw :: more)

/-- A host that issues each word, lets the block run and takes the response, from a released instance with empty
channels, has executed exactly its words in order after three steps a word, whatever CMD_QUEUE_DEPTH is; and the run is
over if it had a word, or was over before (30_encoding.md R71; 20_memory.md R49). The three steps a word are the model's
choice: log entries 3 and 4. How a state shows the end of a run is the model's reading: log entry 16. -/
def Obligations.HostSessionExecutesItsWords : Prop :=
  ∀ (s : State) (ws : List CommandWord), s.resetStatus = .released → s.commands = [] → s.responses = [] →
    s.inputs = ws.flatMap handshake →
    ∃ t u, executeAll ws { s with inputs := [] } = .next t ∧
      Host.Core.run Sys2Proof.core (3 * ws.length) s = .next u ∧
      u = { t with responses := [], lastResponse := if ws = [] then s.lastResponse else .taken } ∧
      (runIsOver u = true ↔ (ws ≠ [] ∨ s.lastResponse = .taken))

/-- Every command word on the channel is executed: with the host idle and room for all the responses, as many steps as
there are words execute them all in order (70_reset_and_hazards.md R166, in its bounded form).
One step a word is the model's choice, and no claim about time: log entries 4 and 11. -/
def Obligations.WaitingCommandsAreExecuted : Prop :=
  ∀ s : State, s.resetStatus = .released → s.inputs = [] →
    s.responses.length + s.commands.length ≤ Config.commandsAhead + 1 →
    ∃ t, executeAll s.commands { s with commands := [] } = .next t ∧
      Host.Core.run Sys2Proof.core s.commands.length s = .next t ∧
      t.responses.length = s.responses.length + s.commands.length

/-- The pseudo-instruction `hash b0, ..., b(n-1)` assembles to `init`, ⌈n/8⌉ updates (one for no bytes) and `final`, and
executing it in any state answers the source algorithm's digest of the bytes (30_encoding.md R69). -/
def Obligations.HashLineComputesTheDigest : Prop :=
  ∀ (s : State) (bytes : List Byte), ∃ words t r, assemble (.hash bytes) = some words ∧
    words.length = 2 + max 1 ((bytes.length + 7) / 8) ∧
    executeAll words s = .next t ∧ t.responses.getLast? = some r ∧
    digestBytes (rspDigest r) = SourceHasher.digest bytes

/-- A step of one instance of a platform is that instance's own step and leaves every other instance as it was
(60_exceptions.md R148).
A platform as a list of states is the model's form: log entry 8. -/
def Obligations.InstancesAreIndependent : Prop :=
  ∀ (instances after : List State) (k : Nat), platformStep instances k = .next after →
    (∀ j, j ≠ k → after[j]? = instances[j]?) ∧
    (∀ s, instances[k]? = some s → ∃ t, step s = .next t ∧ after[k]? = some t)

/-- A run ends exactly where the host takes the response of the last command it issued: that take ends it, whatever the
host does later but issue a command; no other step makes a run that is not over one that is; a reset that discards a
command or a response leaves it not over, and so does issuing a command; and no run is over right after reset
(30_encoding.md R71; 70_reset_and_hazards.md R161). How a state shows the end of a run, what a run with no command is,
and the host's actions as steps of their own are the model's reading: log entries 3 and 16. -/
def Obligations.RunEndsWhenTheLastResponseIsTaken : Prop :=
  (∀ (s : State) (r : ResponseWord) (more : List HostAction), s.inputs = .take :: more → s.commands = [] →
    s.responses = [r] → rspCode r ≠ 3#2 → rspPhase r ≠ 3#2 → (∀ cw, .issue cw ∉ more) →
    ∃ t, step s = .next t ∧ runIsOver t = true) ∧
  (∀ s t : State, step s = .next t → runIsOver s = false → runIsOver t = true →
    s.commands = [] ∧ (∃ r, s.responses = [r]) ∧ s.inputs = .take :: t.inputs) ∧
  (∀ (s : State) (more : List HostAction), s.inputs = .assertReset :: more → (s.commands ≠ [] ∨ s.responses ≠ []) →
    ∃ t, step s = .next t ∧ runIsOver t = false) ∧
  (∀ (s : State) (cw : CommandWord) (more : List HostAction), s.inputs = .issue cw :: more →
    ∃ t, step s = .next t ∧ runIsOver t = false) ∧
  (∀ v : Variant, runIsOver (State.resetOf v) = false)
end

