-- ==== Sys2Proof/Laws/State.lean ====
section
/-! SUPPORT. One lemma per field per update of State, and what ACC, SHIFT and the variant read after each. -/

namespace Sys2Proof.Machine

theorem State.ext_fields {s t : State} (h1 : s.store = t.store) (h2 : s.len = t.len) (h3 : s.phase = t.phase)
    (h4 : s.resetStatus = t.resetStatus) (h5 : s.commands = t.commands) (h6 : s.responses = t.responses)
    (h7 : s.inputs = t.inputs) (h8 : s.lastResponse = t.lastResponse) : s = t := by
  cases s; cases t; simp_all

section setPhase
variable (s : State) (p : Phase)
@[simp] theorem State.setPhase_store : (s.setPhase p).store = s.store := rfl
@[simp] theorem State.setPhase_acc : (s.setPhase p).acc = s.acc := rfl
@[simp] theorem State.setPhase_shift : (s.setPhase p).shift = s.shift := rfl
@[simp] theorem State.setPhase_variant : (s.setPhase p).variant = s.variant := rfl
@[simp] theorem State.setPhase_len : (s.setPhase p).len = s.len := rfl
@[simp] theorem State.setPhase_phase : (s.setPhase p).phase = p := rfl
@[simp] theorem State.setPhase_resetStatus : (s.setPhase p).resetStatus = s.resetStatus := rfl
@[simp] theorem State.setPhase_commands : (s.setPhase p).commands = s.commands := rfl
@[simp] theorem State.setPhase_responses : (s.setPhase p).responses = s.responses := rfl
@[simp] theorem State.setPhase_inputs : (s.setPhase p).inputs = s.inputs := rfl
@[simp] theorem State.setPhase_lastResponse : (s.setPhase p).lastResponse = s.lastResponse := rfl
end setPhase

section respond
variable (s : State) (c : BitVec 2) (d : Word160)
@[simp] theorem State.respond_store : (s.respond c d).store = s.store := rfl
@[simp] theorem State.respond_acc : (s.respond c d).acc = s.acc := rfl
@[simp] theorem State.respond_shift : (s.respond c d).shift = s.shift := rfl
@[simp] theorem State.respond_variant : (s.respond c d).variant = s.variant := rfl
@[simp] theorem State.respond_len : (s.respond c d).len = s.len := rfl
@[simp] theorem State.respond_phase : (s.respond c d).phase = s.phase := rfl
@[simp] theorem State.respond_resetStatus : (s.respond c d).resetStatus = s.resetStatus := rfl
@[simp] theorem State.respond_commands : (s.respond c d).commands = s.commands := rfl
@[simp] theorem State.respond_responses :
    (s.respond c d).responses = s.responses ++ [responseWord c s.phase d] := rfl
@[simp] theorem State.respond_inputs : (s.respond c d).inputs = s.inputs := rfl
@[simp] theorem State.respond_lastResponse : (s.respond c d).lastResponse = s.lastResponse := rfl
end respond

section absorb
variable (s : State) (b : Byte) (bs : List Byte)
@[simp] theorem State.absorb_store : (s.absorb b).store = s.store.absorb b := rfl
@[simp] theorem State.absorb_len : (s.absorb b).len = s.len + 1#64 := rfl
@[simp] theorem State.absorb_phase : (s.absorb b).phase = s.phase := rfl
@[simp] theorem State.absorb_resetStatus : (s.absorb b).resetStatus = s.resetStatus := rfl
@[simp] theorem State.absorb_commands : (s.absorb b).commands = s.commands := rfl
@[simp] theorem State.absorb_responses : (s.absorb b).responses = s.responses := rfl
@[simp] theorem State.absorb_inputs : (s.absorb b).inputs = s.inputs := rfl
@[simp] theorem State.absorb_lastResponse : (s.absorb b).lastResponse = s.lastResponse := rfl
@[simp] theorem State.absorbAll_nil : s.absorbAll [] = s := rfl
@[simp] theorem State.absorbAll_cons : s.absorbAll (b :: bs) = (s.absorb b).absorbAll bs := rfl
end absorb

section clearHash
variable (s : State)
@[simp] theorem State.clearHash_store : s.clearHash.store = HashStore.cleared s.variant := rfl
@[simp] theorem State.clearHash_len : s.clearHash.len = 0#64 := rfl
@[simp] theorem State.clearHash_phase : s.clearHash.phase = .created := rfl
@[simp] theorem State.clearHash_resetStatus : s.clearHash.resetStatus = s.resetStatus := rfl
@[simp] theorem State.clearHash_commands : s.clearHash.commands = s.commands := rfl
@[simp] theorem State.clearHash_responses : s.clearHash.responses = s.responses := rfl
@[simp] theorem State.clearHash_inputs : s.clearHash.inputs = s.inputs := rfl
@[simp] theorem State.clearHash_lastResponse : s.clearHash.lastResponse = s.lastResponse := rfl
end clearHash

section reset
variable (s : State)
@[simp] theorem State.assertReset_store : s.assertReset.store = HashStore.cleared s.variant := rfl
@[simp] theorem State.assertReset_len : s.assertReset.len = 0#64 := rfl
@[simp] theorem State.assertReset_phase : s.assertReset.phase = .created := rfl
@[simp] theorem State.assertReset_resetStatus : s.assertReset.resetStatus = .asserted := rfl
@[simp] theorem State.assertReset_commands : s.assertReset.commands = [] := rfl
@[simp] theorem State.assertReset_responses : s.assertReset.responses = [] := rfl
@[simp] theorem State.assertReset_inputs : s.assertReset.inputs = s.inputs := rfl
@[simp] theorem State.assertReset_lastResponse : s.assertReset.lastResponse = s.fateAtReset := rfl

theorem State.fateAtReset_of_idle (h : s.commands = []) (h' : s.responses = []) : s.fateAtReset = s.lastResponse := by
  simp [State.fateAtReset, h, h']

theorem State.fateAtReset_of_inFlight (h : s.commands ≠ [] ∨ s.responses ≠ []) : s.fateAtReset = .discarded :=
  if_neg fun e => h.elim (· e.1) (· e.2)

theorem State.releaseReset_asserted (h : s.resetStatus = .asserted) :
    s.releaseReset = { s with resetStatus := .released } := by
  simp [State.releaseReset, h]

theorem State.releaseReset_of_ne (h : s.resetStatus ≠ .asserted) : s.releaseReset = s := by
  unfold State.releaseReset; split <;> simp_all

@[simp] theorem State.releaseReset_store : s.releaseReset.store = s.store := by
  unfold State.releaseReset; split <;> rfl
@[simp] theorem State.releaseReset_len : s.releaseReset.len = s.len := by
  unfold State.releaseReset; split <;> rfl
@[simp] theorem State.releaseReset_phase : s.releaseReset.phase = s.phase := by
  unfold State.releaseReset; split <;> rfl
@[simp] theorem State.releaseReset_commands : s.releaseReset.commands = s.commands := by
  unfold State.releaseReset; split <;> rfl
@[simp] theorem State.releaseReset_responses : s.releaseReset.responses = s.responses := by
  unfold State.releaseReset; split <;> rfl
@[simp] theorem State.releaseReset_inputs : s.releaseReset.inputs = s.inputs := by
  unfold State.releaseReset; split <;> rfl
@[simp] theorem State.releaseReset_lastResponse : s.releaseReset.lastResponse = s.lastResponse := by
  unfold State.releaseReset; split <;> rfl
end reset

section resetOf
variable (v : Variant)
@[simp] theorem State.resetOf_store : (State.resetOf v).store = HashStore.cleared v := rfl
@[simp] theorem State.resetOf_len : (State.resetOf v).len = 0#64 := rfl
@[simp] theorem State.resetOf_phase : (State.resetOf v).phase = .created := rfl
@[simp] theorem State.resetOf_resetStatus : (State.resetOf v).resetStatus = .released := rfl
@[simp] theorem State.resetOf_commands : (State.resetOf v).commands = [] := rfl
@[simp] theorem State.resetOf_responses : (State.resetOf v).responses = [] := rfl
@[simp] theorem State.resetOf_inputs : (State.resetOf v).inputs = [] := rfl
@[simp] theorem State.resetOf_lastResponse : (State.resetOf v).lastResponse = .noneYet := rfl
end resetOf

@[simp] theorem HashStore.cleared_variant (v : Variant) : (HashStore.cleared v).variant = v := by cases v <;> rfl

@[simp] theorem State.resetOf_variant (v : Variant) : (State.resetOf v).variant = v := by cases v <;> rfl

end Sys2Proof.Machine
end

