-- ==== Sys2Proof/Laws/Ops.lean ====
section
/-! SUPPORT. What each shared operation does, said once: the response word's fields, rotation bit by bit, the absorb
step in each variant, loops over bytes. -/

namespace Sys2Proof.Machine

section responseWord
variable (c : BitVec 2) (p : Phase) (d : Word160)

@[simp] theorem rspCode_responseWord : rspCode (responseWord c p d) = c := by
  apply BitVec.eq_of_getLsbD_eq; intro i hi
  simp only [rspCode, responseWord, BitVec.getLsbD_extractLsb', BitVec.getLsbD_append]
  simp [hi]

@[simp] theorem rspPhase_responseWord : rspPhase (responseWord c p d) = p.bits := by
  apply BitVec.eq_of_getLsbD_eq; intro i hi
  simp only [rspPhase, responseWord, BitVec.getLsbD_extractLsb', BitVec.getLsbD_append]
  have h1 : ¬ (2 + i < 2) := by omega
  have h2 : 2 + i - 2 = i := by omega
  simp [hi, h1, h2]

@[simp] theorem rspZero_responseWord : rspZero (responseWord c p d) = 0#4 := by
  apply BitVec.eq_of_getLsbD_eq; intro i hi
  simp only [rspZero, responseWord, BitVec.getLsbD_extractLsb', BitVec.getLsbD_append]
  have h1 : ¬ (4 + i < 2) := by omega
  have h2 : ¬ (4 + i - 2 < 2) := by omega
  have h3 : 4 + i - 2 - 2 < 4 := by omega
  simp [hi, h1, h2, h3]

@[simp] theorem rspDigest_responseWord : rspDigest (responseWord c p d) = d := by
  apply BitVec.eq_of_getLsbD_eq; intro i hi
  simp only [rspDigest, responseWord, BitVec.getLsbD_extractLsb', BitVec.getLsbD_append]
  have h1 : ¬ (8 + i < 2) := by omega
  have h2 : ¬ (8 + i - 2 < 2) := by omega
  have h3 : ¬ (8 + i - 2 - 2 < 4) := by omega
  have h4 : 8 + i - 2 - 2 - 4 = i := by omega
  simp [hi, h1, h2, h3, h4]

end responseWord

theorem Phase.bits_ne_three (p : Phase) : p.bits ≠ 3#2 := by cases p <;> decide

theorem illegalCode_ne_three (c : IllegalCode) : illegalCode c ≠ 3#2 := by cases c <;> decide

/-- A response whose CODE is not 3 is never a reserved one: PHASE 3 has no constructor. -/
theorem reservedResponse_responseWord (c : BitVec 2) (p : Phase) (d : Word160) (h : c ≠ 3#2) :
    reservedResponse (responseWord c p d) = false := by
  simp [reservedResponse, h, p.bits_ne_three]

@[simp] theorem nextShift_val (s : Fin 160) : (nextShift s).val = (s.val + 11) % 160 := rfl

@[simp] theorem nextCur_val (c : Fin 160) : (nextCur c).val = (c.val + 1) % 160 := rfl

/-- Bit by bit, a routed byte: bit `t` of the byte stands at bit `(s + t) mod 160` (40_update.md R82). -/
theorem getLsbD_routed (b : Byte) {s p : Nat} (hs : s < 160) (hp : p < 160) :
    (routed b s).getLsbD p = b.getLsbD ((p + (160 - s)) % 160) := by
  simp only [routed, rotl160, BitVec.getLsbD_or, BitVec.getLsbD_shiftLeft, BitVec.getLsbD_ushiftRight,
    BitVec.zeroExtend, BitVec.getLsbD_setWidth]
  rcases Nat.lt_or_ge p s with h | h
  · have : (p + (160 - s)) % 160 = 160 - s + p := by omega
    have h2 : 160 - s + p < 160 := by omega
    simp [hp, h, this, h2]
  · have : (p + (160 - s)) % 160 = p - s := by omega
    have h2 : p - s < 160 := by omega
    have h3 : b.getLsbD (160 - s + p) = false := BitVec.getLsbD_of_ge _ _ (by omega)
    simp [hp, Nat.not_lt.mpr h, this, h2, h3]

theorem routed_xor (b c : Byte) {s : Nat} (hs : s < 160) : routed (b ^^^ c) s = routed b s ^^^ routed c s := by
  apply BitVec.eq_of_getLsbD_eq; intro i hi
  simp [getLsbD_routed _ hs hi]

theorem routed_zero {s : Nat} (hs : s < 160) : routed 0#8 s = 0#160 := by
  apply BitVec.eq_of_getLsbD_eq; intro i hi
  simp [getLsbD_routed _ hs hi]

theorem getLsbD_lane (v : Word160) (k i : Nat) (hi : i < 8) : (lane v k).getLsbD i = v.getLsbD (8 * k + i) := by
  simp [lane, hi]

theorem lane_xor (a b : Word160) (k : Nat) : lane (a ^^^ b) k = lane a k ^^^ lane b k := by
  apply BitVec.eq_of_getLsbD_eq; intro i hi
  simp [getLsbD_lane _ _ _ hi]

/-- The loop of FOLD starts from its accumulator by XOR. -/
theorem foldFrom_acc (xs : List Byte) (s : Fin 160) (a : Word160) :
    foldFrom xs s a = a ^^^ foldFrom xs s 0#160 := by
  induction xs generalizing s a with
  | nil => simp [foldFrom]
  | cons x xs ih =>
    simp only [foldFrom]
    rw [ih, ih _ (0#160 ^^^ _)]
    simp [BitVec.xor_assoc]

@[simp] theorem HashStore.absorb_perByte (acc : Word160) (shift : Fin 160) (b : Byte) :
    (HashStore.perByte acc shift).absorb b = .perByte (acc ^^^ routed b shift.val) (nextShift shift) := rfl

theorem HashStore.absorb_block (buf accb : Vector Byte 160) (cur : Fin 160) (b : Byte) :
    (HashStore.block buf accb cur).absorb b = absorbBlock buf accb cur b := rfl

/-- The block absorb where the cursor does not wrap. -/
theorem absorbBlock_inside (buf accb : Vector Byte 160) (cur : Fin 160) (b : Byte) (h : nextCur cur ≠ 0) :
    absorbBlock buf accb cur b = .block (buf.set cur.val (buf[cur.val] ^^^ b)) accb (nextCur cur) := by
  simp [absorbBlock, h]

/-- The block absorb where the cursor wraps: the block fold (40_update.md R93). -/
theorem absorbBlock_wrap (buf accb : Vector Byte 160) (cur : Fin 160) (b : Byte) (h : nextCur cur = 0) :
    absorbBlock buf accb cur b =
      .block (Vector.replicate 160 0#8) (xorBlock accb (buf.set cur.val (buf[cur.val] ^^^ b))) 0 := by
  simp [absorbBlock, h]

@[simp] theorem HashStore.absorb_variant (h : HashStore) (b : Byte) : (h.absorb b).variant = h.variant := by
  cases h with
  | perByte acc shift => rfl
  | block buf accb cur => rw [HashStore.absorb_block]; unfold absorbBlock; split <;> rfl

@[simp] theorem State.absorb_variant (s : State) (b : Byte) : (s.absorb b).variant = s.variant :=
  HashStore.absorb_variant s.store b

theorem State.absorbAll_append (s : State) (bs cs : List Byte) :
    s.absorbAll (bs ++ cs) = (s.absorbAll bs).absorbAll cs := by
  induction bs generalizing s with
  | nil => rfl
  | cons b bs ih => simp [ih]

/-- What the loop of UPDATE leaves alone. -/
theorem State.absorbAll_frame (s : State) (bs : List Byte) :
    (s.absorbAll bs).variant = s.variant ∧ (s.absorbAll bs).phase = s.phase ∧
    (s.absorbAll bs).resetStatus = s.resetStatus ∧ (s.absorbAll bs).commands = s.commands ∧
    (s.absorbAll bs).responses = s.responses ∧ (s.absorbAll bs).inputs = s.inputs ∧
    (s.absorbAll bs).lastResponse = s.lastResponse := by
  induction bs generalizing s with
  | nil => simp
  | cons b bs ih => simpa using ih (s.absorb b)

@[simp] theorem State.absorbAll_variant (s : State) (bs : List Byte) : (s.absorbAll bs).variant = s.variant :=
  (s.absorbAll_frame bs).1
@[simp] theorem State.absorbAll_phase (s : State) (bs : List Byte) : (s.absorbAll bs).phase = s.phase :=
  (s.absorbAll_frame bs).2.1
@[simp] theorem State.absorbAll_resetStatus (s : State) (bs : List Byte) :
    (s.absorbAll bs).resetStatus = s.resetStatus := (s.absorbAll_frame bs).2.2.1
@[simp] theorem State.absorbAll_commands (s : State) (bs : List Byte) : (s.absorbAll bs).commands = s.commands :=
  (s.absorbAll_frame bs).2.2.2.1
@[simp] theorem State.absorbAll_responses (s : State) (bs : List Byte) : (s.absorbAll bs).responses = s.responses :=
  (s.absorbAll_frame bs).2.2.2.2.1
@[simp] theorem State.absorbAll_inputs (s : State) (bs : List Byte) : (s.absorbAll bs).inputs = s.inputs :=
  (s.absorbAll_frame bs).2.2.2.2.2.1
@[simp] theorem State.absorbAll_lastResponse (s : State) (bs : List Byte) :
    (s.absorbAll bs).lastResponse = s.lastResponse := (s.absorbAll_frame bs).2.2.2.2.2.2

/-- Raising an illegal command answers, and does nothing else (60_exceptions.md R142). -/
theorem State.raiseIllegal_eq (s : State) (c : IllegalCode) :
    s.raiseIllegal c = { s with responses := s.responses ++ [responseWord (illegalCode c) s.phase 0#160] } := rfl

theorem State.hasRoom_nil (s : State) (h : s.responses = []) : s.hasRoom = true := by simp [State.hasRoom, h]

theorem State.hasRoom_cons (s : State) (r : ResponseWord) (rs : List ResponseWord) (h : s.responses = r :: rs) :
    s.hasRoom = decide (rs.length < Config.commandsAhead) := by simp [State.hasRoom, h]

theorem State.hasRoom_iff (s : State) : s.hasRoom = true ↔ s.responses.length < Config.commandsAhead + 1 := by
  unfold State.hasRoom; split <;> simp_all

end Sys2Proof.Machine
end

