-- ==== Sys2Proof/Laws/PerInstr.lean ====
section
/-! SUPPORT. One lemma per constructor of Instr: the header its encoding carries (30_encoding.md R60, R61, R62, R63). -/

namespace Sys2Proof

theorem Instr.wellFormed_update (bytes : List Byte) : (Instr.update bytes).wellFormed = true ↔ bytes.length ≤ 8 :=
  decide_eq_true_iff

end Sys2Proof

namespace Sys2Proof.Laws

/-- The OPC of an instruction (30_encoding.md R61). -/
def opcOf : Instr → BitVec 4
  | .init => 0x1#4
  | .update _ => 0x2#4
  | .final => 0x3#4

/-- The CNT of an instruction (30_encoding.md R62). -/
def cntOf : Instr → Nat
  | .init => 0
  | .update bytes => bytes.length
  | .final => 0

theorem cwOpc_commandWord (o c : BitVec 4) (d : Data) : cwOpc (commandWord o c d) = o := by
  apply BitVec.eq_of_getLsbD_eq; intro i hi
  simp only [cwOpc, commandWord, BitVec.getLsbD_extractLsb', BitVec.getLsbD_append]
  simp [hi]

theorem cwCnt_commandWord (o c : BitVec 4) (d : Data) : cwCnt (commandWord o c d) = c := by
  apply BitVec.eq_of_getLsbD_eq; intro i hi
  simp only [cwCnt, commandWord, BitVec.getLsbD_extractLsb', BitVec.getLsbD_append]
  have h1 : ¬ (4 + i < 4) := by omega
  have h2 : 4 + i - 4 = i := by omega
  simp [hi, h1, h2]

theorem cwRsv_commandWord (o c : BitVec 4) (d : Data) : cwRsv (commandWord o c d) = 0#8 := by
  apply BitVec.eq_of_getLsbD_eq; intro i hi
  simp only [cwRsv, commandWord, BitVec.getLsbD_extractLsb', BitVec.getLsbD_append]
  have h1 : ¬ (8 + i < 4) := by omega
  have h2 : ¬ (8 + i - 4 < 4) := by omega
  have h3 : 8 + i - 4 - 4 < 8 := by omega
  simp [hi, h1, h2, h3]

theorem cwData_commandWord (o c : BitVec 4) (d : Data) : cwData (commandWord o c d) = d := by
  apply BitVec.eq_of_getLsbD_eq; intro i hi
  simp only [cwData, commandWord, BitVec.getLsbD_extractLsb', BitVec.getLsbD_append]
  have h1 : ¬ (16 + i < 4) := by omega
  have h2 : ¬ (16 + i - 4 < 4) := by omega
  have h3 : ¬ (16 + i - 4 - 4 < 8) := by omega
  have h4 : 16 + i - 4 - 4 - 8 = i := by omega
  simp [hi, h1, h2, h3, h4]

/-- The encoding of a well-formed instruction carries its OPC, its CNT and RSV = 0. -/
def EncodedHeader.Statement (i : Instr) : Prop :=
  i.wellFormed = true →
    cwOpc (encode i) = opcOf i ∧ (cwCnt (encode i)).toNat = cntOf i ∧ cwRsv (encode i) = 0#8

theorem EncodedHeader.init : EncodedHeader.Statement .init := by
  intro _; decide

theorem EncodedHeader.update (bytes : List Byte) : EncodedHeader.Statement (.update bytes) := by
  intro h
  have h := (Instr.wellFormed_update bytes).1 h
  refine ⟨cwOpc_commandWord .., ?_, cwRsv_commandWord ..⟩
  simp only [encode, cwCnt_commandWord, cntOf, BitVec.toNat_ofNat]
  omega

theorem EncodedHeader.final : EncodedHeader.Statement .final := by
  intro _; decide

end Sys2Proof.Laws
end

