-- ==== Sys2Proof/Laws/Step.lean ====
section
/-! SUPPORT. What a command word, a move of the block, an action of the host and a step can do, each said once. -/

namespace Sys2Proof.Machine

theorem executeWord_ok {cw : CommandWord} {i : Instr} (h : decode cw = .ok i) (s : State) :
    executeWord cw s = exec i s := by simp [executeWord, h]

theorem executeWord_error {cw : CommandWord} {c : IllegalCode} (h : decode cw = .error c) (s : State) :
    executeWord cw s = .next (s.raiseIllegal c) := by simp [executeWord, h]

/-- A command word does one of four things, and always answers a next state. -/
theorem executeWord_cases (cw : CommandWord) (s : State) :
    (decode cw = .ok .init ∧ executeWord cw s = .next (s.clearHash.respond okCode 0#160)) ∨
    (∃ bytes, decode cw = .ok (.update bytes) ∧
      executeWord cw s = .next (((s.absorbAll bytes).setPhase .active).respond okCode 0#160)) ∨
    (decode cw = .ok .final ∧
      executeWord cw s = .next ((s.setPhase .finalized).respond okCode (digestOf s.acc s.len))) ∨
    (∃ c, decode cw = .error c ∧ executeWord cw s = .next (s.raiseIllegal c)) := by
  cases h : decode cw with
  | error c => exact .inr (.inr (.inr ⟨c, rfl, executeWord_error h s⟩))
  | ok i =>
    cases i with
    | init => exact .inl ⟨rfl, executeWord_ok h s⟩
    | update bytes => exact .inr (.inl ⟨bytes, rfl, executeWord_ok h s⟩)
    | final => exact .inr (.inr (.inl ⟨rfl, executeWord_ok h s⟩))

theorem executeWord_total (cw : CommandWord) (s : State) : ∃ t, executeWord cw s = .next t := by
  rcases executeWord_cases cw s with h | ⟨_, h⟩ | h | ⟨_, h⟩ <;> exact ⟨_, h.2⟩

@[simp] theorem executeAll_nil (s : State) : executeAll [] s = .next s := rfl

theorem executeAll_cons {cw : CommandWord} {rest : List CommandWord} {s t : State}
    (h : executeWord cw s = .next t) : executeAll (cw :: rest) s = executeAll rest t := by
  simp [executeAll, h]

/-- Where the block's move answers a next state, it was idle or it executed the oldest command word. -/
theorem blockMove_cases {s t : State} (h : blockMove s = .next t) :
    t = s ∨ ∃ cw rest, s.commands = cw :: rest ∧ s.resetStatus = .released ∧ s.hasRoom = true ∧
      executeWord cw { s with commands := rest } = .next t := by
  unfold blockMove at h
  split at h
  · exact .inl (by injection h with h; exact h.symm)
  · rename_i cw rest hc
    split at h
    · cases h
    · exact .inl (by injection h with h; exact h.symm)
    · rename_i hr
      split at h
      · rename_i hroom; exact .inr ⟨cw, rest, hc, hr, hroom, h⟩
      · exact .inl (by injection h with h; exact h.symm)

/-- Where taking a response answers a next state, none was waiting or the oldest, no reserved one, is gone. -/
theorem takeResponse_cases {s t : State} (h : takeResponse s = .next t) :
    (s.responses = [] ∧ t = s) ∨
    ∃ r rest, s.responses = r :: rest ∧ reservedResponse r = false ∧
      t = { s with responses := rest, lastResponse := .taken } := by
  unfold takeResponse at h
  split at h
  · rename_i hr; exact .inl ⟨hr, by injection h with h; exact h.symm⟩
  · rename_i r rest hr
    split at h
    · cases h
    · rename_i hres
      exact .inr ⟨r, rest, hr, by simpa using hres, by injection h with h; exact h.symm⟩

/-- A step is a move of the block where the host does nothing or waits, and else the host's next action. -/
theorem step_nil {s : State} (h : s.inputs = []) : step s = blockMove s := by
  simp [step, nextEvent, h]

theorem step_cons {s : State} {a : HostAction} {rest : List HostAction} (h : s.inputs = a :: rest) :
    step s = hostAct a { s with inputs := rest } := by
  simp [step, nextEvent, h]

end Sys2Proof.Machine
end

