-- ==== Sys2Proof/Tests/Slice0.lean ====
section
/-! SUPPORT. Tests, each with its source in spec/95_test_vectors.md or a rule, and for every statement with hypotheses a
witness that meets them. -/

namespace Sys2Proof.Machine

/-! ## Helpers -/

/-- A released instance of the variant after some bytes, its channels empty. -/
def after (v : Variant) (bytes : List Byte) : State := (State.resetOf v).absorbAll bytes

/-- ACC and LEN, SHIFT and PHASE of a next state. -/
def hashOf : Host.Outcome State Fault Refusal → Option (Word160 × BitVec 64 × Fin 160 × Phase)
  | .next s => some (s.acc, s.len, s.shift, s.phase)
  | .fault _ => none
  | .refused _ => none

/-- The response words of a next state. -/
def responsesOf : Host.Outcome State Fault Refusal → List ResponseWord
  | .next s => s.responses
  | .fault _ => []
  | .refused _ => []

/-! ## Syntax, decoding, encoding -/

/-- 00_scope.md R6. -/
theorem test_parameters : Config.digestBytes = 20 ∧ Config.digestBits = 8 * Config.digestBytes ∧
    Config.shiftQuantum = 11 ∧ Config.blockBytes = 160 ∧ Config.lenBits = 64 ∧ Config.lenFoldOffset = 12 ∧
    Config.beatBytes = 8 ∧ Config.commandBits = 80 ∧ Config.responseBits = 168 := by decide

/-- 30_encoding.md R62: nine bytes are not well formed, eight are. -/
theorem test_wellFormed_refuses_nine_bytes :
    (Instr.update (List.replicate 9 0#8)).wellFormed = false ∧
    (Instr.update (List.replicate 8 0#8)).wellFormed = true := by decide

/-- INIT written out field by field from R60 and R61: DATA, RSV, CNT, OPC. -/
theorem test_decode_init :
    decode ((0xFFFFFFFFFFFFFFFF#64 ++ 0b00000000#8) ++ (0b0000#4 ++ 0b0001#4)) = .ok .init := by decide

/-- UPDATE with CNT = 2 written out: byte(0) = 0xB5 is DATA[7:0], byte(1) = 0xB4 is DATA[15:8] (B6). -/
theorem test_decode_update :
    decode ((0x000000000000B4B5#64 ++ 0b00000000#8) ++ (0b0010#4 ++ 0b0010#4)) = .ok (.update [0xB5#8, 0xB4#8]) := by
  decide

/-- FINAL written out, with DATA that is ignored. -/
theorem test_decode_final :
    decode ((0x0123456789ABCDEF#64 ++ 0b00000000#8) ++ (0b0000#4 ++ 0b0011#4)) = .ok .final := by decide

/-- E1 to E9: the code each illegal word reports. -/
theorem test_illegal_words :
    decode 0x00000000000000000000#80 = .error .illegalOpc ∧ decode 0x0000000000000000000F#80 = .error .illegalOpc ∧
    decode 0x00000000000000000004#80 = .error .illegalOpc ∧ decode 0x08070605040302010092#80 = .error .illegalField ∧
    decode 0x000000000000000000F2#80 = .error .illegalField ∧ decode 0x00000000000000000013#80 = .error .illegalField ∧
    decode 0x00000000000000008001#80 = .error .illegalField ∧ decode 0x000000000000000001F5#80 = .error .illegalOpc ∧
    decode 0x00000000000000000182#80 = .error .illegalField := by decide

/-- The words of P2 and P3 the encoder writes. -/
theorem test_encode : encode .init = 0x00000000000000000001#80 ∧ encode .final = 0x00000000000000000003#80 ∧
    encode (.update [0xB5#8, 0xB4#8]) = 0x000000000000B4B50022#80 := by decide

/-- The opcode table's numbering: 80 table bits, and 16 with every bit above them 0. -/
theorem test_table_words : decodeTableWord 80 0x08070605040302010082 = some (.update [1, 2, 3, 4, 5, 6, 7, 8]) ∧
    decodeTableWord 16 0x0003 = some .final ∧ decodeTableWord 80 0 = none := by decide

/-- P3 and 30_encoding.md R68, R69 as text, with a comment, a decimal operand, a string and a nine-byte `absorb`. -/
theorem test_assembler :
    assembleText "init\nupdate 0xB5, 180 ; a comment\n.cw 0x08070605040302010092\nhash \"dog\"\nabsorb 1,2,3,4,5,6,7,8,9".toList =
      some [0x00000000000000000001#80, 0x000000000000B4B50022#80, 0x08070605040302010092#80,
        0x00000000000000000001#80, 0x0000000000676F640032#80, 0x00000000000000000003#80,
        0x08070605040302010082#80, 0x00000000000000090012#80] ∧
    assembleText "update 1,2,3,4,5,6,7,8,9".toList = none := by decide

/-! ## Instructions, one step each -/

/-- B1: a full beat from reset, in a PER_BYTE instance. -/
theorem test_update_full_beat :
    hashOf (executeWord 0x08070605040302010082#80 (State.resetOf .perByte)) =
      some (0x01001C0300500800C01001#160, 8#64, 88, .active) := by decide +kernel

/-- B5 in a BLOCK instance: LEN wraps, SHIFT goes on. -/
theorem test_update_len_wraps :
    hashOf (executeWord 0x00000000000000010012#80 { State.resetOf .block with len := 0xFFFFFFFFFFFFFFFF#64 }) =
      some (1#160, 0#64, 11, .active) := by decide +kernel

/-- F1 on a BLOCK instance: LEN little-endian at byte 12. -/
theorem test_final_length_order :
    (responsesOf (execFinal { State.resetOf .block with len := 0x0102030405060708#64 })).map
      (fun r => digestBytes (rspDigest r)) =
      [List.replicate 12 0x00#8 ++ [8#8, 7#8, 6#8, 5#8, 4#8, 3#8, 2#8, 1#8]] := by decide +kernel

/-- S3, step 4 of P2: the response word of FINAL after B5 B4. -/
theorem test_final_response :
    responsesOf (execFinal (after .perByte [0xB5#8, 0xB4#8])) = [0x000000000000000200000000000000000005A0B508#168] := by
  decide +kernel

/-- I1: INIT clears the hash state of a used BLOCK instance, and answers the zero word. -/
theorem test_init_clears :
    hashOf (execInit ((after .block [0x4A#8]).setPhase .finalized)) = some (0#160, 0#64, 0, .created) ∧
    responsesOf (execInit ((after .block [0x4A#8]).setPhase .finalized)) = [0#168] := by decide +kernel

/-- P3, step 2: an illegal field answers CODE 2 with the unchanged PHASE. -/
theorem test_illegal_response :
    responsesOf (executeWord 0x08070605040302010092#80 (State.resetOf .perByte)) = [2#168] := by decide +kernel

/-- K4: FOLD of a lone 0xFF at position 145. -/
theorem test_fold_wraps :
    foldBlock ((Vector.replicate 160 0#8).set 145 0xFF#8) = 0xF800000000000000000000000000000000000007#160 := by decide +kernel

/-- S3 by the source's own algorithm (40_update.md R84). -/
theorem test_source_algorithm : SourceHasher.digest [0xB5#8, 0xB4#8] =
    [0xB5#8, 0xA0#8, 0x05#8] ++ List.replicate 9 0#8 ++ [2#8] ++ List.replicate 7 0#8 := by decide +kernel

/-- The fetch of the host's question: the word placed is the one the next step runs, as the first after reset. -/
theorem test_fetch_runs_the_word :
    hashOf (step (State.reset.withFetchWord 80 0x000000000000B4B50022)) =
      some (0x05A0B5#160, 2#64, 22, .active) := by decide +kernel

/-! ## Witnesses: states and operands that meet the hypotheses of the statements -/

/-- DecodeUndoesEncode, at the largest and the smallest beat. -/
theorem witness_DecodeUndoesEncode :
    (Instr.update [1#8, 2#8, 3#8, 4#8, 5#8, 6#8, 7#8, 0xFF#8]).wellFormed = true ∧ (Instr.update []).wellFormed = true := by
  decide

/-- DecoderReadsEveryWord: a word for each clause, at the boundary of CNT and of OPC. -/
theorem witness_DecoderReadsEveryWord :
    (0xFFFFFFFFFFFFFFFF0001#80).toNat % 65536 = 1 ∧ (0x00000000000000000003#80).toNat % 65536 = 3 ∧
    decode 0x08070605040302010082#80 = .ok (.update [1, 2, 3, 4, 5, 6, 7, 8]) ∧
    (0x00000000000000000004#80).toNat % 16 = 4 ∧ (0x00000000000000000092#80).toNat / 16 % 16 = 9 := by decide

/-- IgnoredBytesHaveNoEffect: the two words of B3, which differ in bytes 3 to 7 alone. -/
theorem witness_IgnoredBytesHaveNoEffect :
    (0xEEDDCCBBAA0302010032#80).toNat % 65536 = (0x00000000000302010032#80).toNat % 65536 ∧
    (cwOpc 0xEEDDCCBBAA0302010032#80 = 0x2#4 → ∀ j, j < (cwCnt 0xEEDDCCBBAA0302010032#80).toNat →
      dataByte (cwData 0xEEDDCCBBAA0302010032#80) j = dataByte (cwData 0x00000000000302010032#80) j) := by decide

/-- DecodedWordsAreWellFormed: a word whose ignored bytes are not zero. -/
theorem witness_DecodedWordsAreWellFormed :
    decode 0xEEDDCCBBAA0302010032#80 = .ok (.update [1#8, 2#8, 3#8]) := by decide

/-- AbsorbRoutesTheByte: at SHIFT 159 in a BLOCK instance, bit 7 lands at bit 6, and bit 8 is none of the byte's. -/
theorem witness_AbsorbRoutesTheByte :
    (HashStore.block (Vector.replicate 160 0#8) (Vector.replicate 160 0#8) 29).shift = 159 ∧
    (159 + 7) % 160 = 6 ∧ ∀ t, t < 8 → 8 ≠ (159 + t) % 160 := by decide

/-- LaneSplitAgreesWithRotation: the last shift, with a high part that wraps, one without a high part, and a lane
neither touches. -/
theorem witness_LaneSplitAgreesWithRotation :
    159 < 160 ∧ 159 % 8 ≠ 0 ∧ (159 / 8 + 1) % 20 = 0 ∧ 152 < 160 ∧ 152 % 8 = 0 ∧
    (18 < 20 ∧ 18 ≠ 159 / 8 ∧ (159 % 8 = 0 ∨ 18 ≠ (159 / 8 + 1) % 20)) ∧
    (0 < 20 ∧ 0 ≠ 152 / 8 ∧ (152 % 8 = 0 ∨ 0 ≠ (152 / 8 + 1) % 20)) := by decide

/-- ShiftHasPeriod160: byte lists of 0, 1, 159 and 160 bytes, an aligned and an unaligned position, and a list that
reaches SHIFT 11. -/
theorem witness_ShiftHasPeriod160 :
    (List.replicate 160 0#8).length = 160 ∧ (0 < (List.replicate 1 0#8).length ∧ (List.replicate 1 0#8).length < 160) ∧
    (0 < (List.replicate 159 0#8).length ∧ (List.replicate 159 0#8).length < 160) ∧
    (after .perByte [0#8]).shift = 11 ∧ 8 % 8 = 0 ∧ 7 % 8 ≠ 0 := by decide +kernel

/-- WrapAroundCorner: positions of the least and greatest shift that wraps, and inner lanes at both ends. -/
theorem witness_WrapAroundCorner : 153 ≤ 11 * 43 % 160 ∧ 153 ≤ 11 * 29 % 160 ∧ 0 < 1 ∧ 1 < 19 ∧ 0 < 18 ∧ 18 < 19 := by
  decide

/-- LengthWrapsAndShiftGoesOn: LEN at its largest, with SHIFT still (11 · LEN) mod 160 = 85. -/
theorem witness_LengthWrapsAndShiftGoesOn :
    ({ State.resetOf .perByte with store := .perByte 0#160 85, len := 0xFFFFFFFFFFFFFFFF#64 } : State).shift.val =
      (11 * (0xFFFFFFFFFFFFFFFF#64).toNat) % 160 := by decide

/-- BeatIsParallelReduction: a full beat, and the first and fourteenth of consecutive bytes. -/
theorem witness_BeatIsParallelReduction : (List.replicate 8 0xFF#8).length ≤ 8 ∧ 0 < 1 ∧ 1 < 0 + 14 ∧ 0 < 13 ∧ 13 < 0 + 14 := by
  decide

/-- ClosedFormOfTheStream, ChunkingDoesNotMatter and DigestIsTheSourceAlgorithms: three bytes in two splits, an empty
beat among them, and the empty stream; and an INIT word. -/
theorem witness_streams :
    streamOf [0x00000000000302010032#80] = some [1#8, 2#8, 3#8] ∧
    streamOf [0x00000000000000010012#80, 0x00000000000000000002#80, 0x00000000000003020022#80] = some [1#8, 2#8, 3#8] ∧
    streamOf [] = some [] ∧ decode 0x00000000000000000001#80 = .ok .init := by decide

/-- AgreementIsABisimulation: the two variants agree, at reset and with work on their channels. -/
theorem witness_AgreementIsABisimulation :
    Agree { State.resetOf .perByte with commands := [0x00000000000000010012#80] }
      { State.resetOf .block with commands := [0x00000000000000010012#80] } :=
  ⟨by decide +kernel, by decide, rfl, rfl, rfl, rfl, rfl, rfl, rfl⟩

/-- Its second and third clause: agreeing instances that stop, with a fault and with a refusal. -/
theorem witness_Agreement_stops :
    Agree { State.resetOf .perByte with resetStatus := .neverReset, commands := [3#80] }
      { State.resetOf .block with resetStatus := .neverReset, commands := [3#80] } ∧
    step { State.resetOf .perByte with resetStatus := .neverReset, commands := [3#80] } = .fault .beforeFirstReset ∧
    Agree { State.resetOf .perByte with inputs := [.issueByOther 1#80] }
      { State.resetOf .block with inputs := [.issueByOther 1#80] } ∧
    step { State.resetOf .perByte with inputs := [.issueByOther 1#80] } = .refused .mergedHosts := by
  refine ⟨?_, ?_, ?_, ?_⟩
  · exact ⟨by decide +kernel, by decide +kernel, rfl, rfl, rfl, rfl, rfl, rfl, rfl⟩
  · rw [step_nil rfl]; simp [blockMove]
  · exact ⟨by decide +kernel, by decide +kernel, rfl, rfl, rfl, rfl, rfl, rfl, rfl⟩
  · rw [step_cons rfl]; rfl

/-- FinalIsIdempotent: a FINAL and an illegal word between the two FINALs. -/
theorem witness_FinalIsIdempotent :
    ∀ cw ∈ [0x00000000000000000003#80, 0x00000000000000000000#80], finalWord cw = true ∨ legalWord cw = false := by
  intro cw h
  rcases List.mem_pair.1 h with rfl | rfl <;> decide

/-- LengthSeparatesDigests: the two inputs of V17's remark, ACC equal and LEN 0 and 320. -/
theorem witness_LengthSeparatesDigests :
    (State.resetOf .perByte).acc = ({ State.resetOf .perByte with len := 320#64 } : State).acc ∧
    (State.resetOf .perByte).len ≠ ({ State.resetOf .perByte with len := 320#64 } : State).len := by decide

/-- InitDiscardsThePast: an INIT word with junk DATA (I2). -/
theorem witness_InitDiscardsThePast : decode 0xFFFFFFFFFFFFFFFF0001#80 = .ok .init := by decide

/-- IllegalWordChangesNothing and StepAnswersAnIllegalWord: a word of each code. -/
theorem witness_illegal_words :
    decode 0x0000000000000000000F#80 = .error .illegalOpc ∧ decode 0x000000000000000000F2#80 = .error .illegalField := by
  decide

/-- OneResponsePerCommand and PhaseFollowsTheCommand: a word of each kind. -/
theorem witness_word_kinds :
    finalWord 0x00000000000000000003#80 = true ∧ finalWord 0x00000000000000000002#80 = false ∧
    decode 0x00000000000000000001#80 = .ok .init ∧ decode 0x00000000000000000002#80 = .ok (.update []) ∧
    decode 0x00000000000000000003#80 = .ok .final ∧ decode 0x00000000000000000013#80 = .error .illegalField := by decide

/-- StepRunsTheDecodedInstruction: a released instance with a full beat waiting and no response, host idle or waiting. -/
theorem witness_StepRunsTheDecodedInstruction :
    ({ State.resetOf .block with commands := [0x08070605040302010082#80] } : State).inputs = [] ∧
    ({ State.resetOf .block with commands := [0x08070605040302010082#80], inputs := [.wait] } : State).inputs = [.wait] ∧
    decode 0x08070605040302010082#80 = .ok (.update [1, 2, 3, 4, 5, 6, 7, 8]) ∧
    (State.resetOf .block).resetStatus = .released ∧
    (State.resetOf .block).responses.length < Config.commandsAhead + 1 :=
  ⟨rfl, rfl, by decide, rfl, Nat.succ_pos _⟩

/-- StepAnswersAnIllegalWord: the same with the all-zero word. -/
theorem witness_StepAnswersAnIllegalWord :
    ({ State.resetOf .perByte with commands := [0#80], inputs := [.wait, .take] } : State).inputs = .wait :: [.take] ∧
    ({ State.resetOf .perByte with commands := [0#80] } : State).inputs = [] ∧
    decode 0#80 = .error .illegalOpc ∧ (State.resetOf .perByte).responses.length < Config.commandsAhead + 1 :=
  ⟨rfl, rfl, by decide, Nat.succ_pos _⟩

/-- HostActionsAndIdleBlock: a response to take (S1's), and a channel at CMD_QUEUE_DEPTH. -/
theorem witness_HostActionsAndIdleBlock :
    rspCode 0x000000000000000100000000000000000000004A08#168 ≠ 3#2 ∧
    rspPhase 0x000000000000000100000000000000000000004A08#168 ≠ 3#2 ∧
    Config.commandsAhead + 1 ≤
      ({ State.resetOf .perByte with responses := List.replicate (Config.commandsAhead + 1) 0#168 } : State).responses.length :=
  ⟨by decide, by decide, by simp⟩

/-- ResetDiscardsWhatIsInFlight: a used instance whose host asserts reset, one in reset with a word
waiting, and the four-action session. -/
theorem witness_reset_states :
    ({ after .block [0x4A#8] with commands := [3#80], responses := [4#168], inputs := [.assertReset] } : State).inputs =
      [.assertReset] ∧
    ({ State.resetOf .perByte with resetStatus := .asserted, commands := [3#80] } : State).inputs = [] ∧
    ({ State.resetOf .perByte with resetStatus := .asserted, commands := [3#80], inputs := [.wait] } : State).resetStatus =
      .asserted ∧
    ({ after .block [0x4A#8] with inputs := [.assertReset, .releaseReset, .issue 3#80, .wait] } : State).inputs =
      [.assertReset, .releaseReset, .issue 3#80, .wait] := by decide +kernel

/-- NoCommandBeforeTheFirstReset: a powered-up instance with a word waiting, and one whose step answers a next state. -/
theorem witness_NoCommandBeforeTheFirstReset :
    ({ State.powerUp .perByte with commands := [3#80] } : State).resetStatus = .neverReset ∧
    ({ State.powerUp .perByte with commands := [3#80] } : State).commands ≠ [] ∧
    step { State.powerUp .block with inputs := [.releaseReset] } = .next (State.powerUp .block) ∧
    ({ State.powerUp .block with inputs := [.releaseReset] } : State).inputs.head? ≠ some .assertReset :=
  ⟨rfl, by simp, rfl, by simp⟩

/-- StepKeepsGoodInterface and NeverStopsAfterReset: an instance with S1's digest waiting, about to be taken. -/
theorem witness_GoodInterface :
    GoodInterface { State.resetOf .perByte with
      phase := .finalized
      inputs := [.take]
      responses := [0x000000000000000100000000000000000000004A08#168] } :=
  ⟨by simp; decide +kernel, by simp, by simp [State.resetOf], by simp; decide +kernel⟩

/-- NeverStopsAfterReset, its second case: a second host's word. -/
theorem witness_GoodInterface_merged : GoodInterface { State.resetOf .block with inputs := [.issueByOther 3#80] } :=
  ⟨by simp [State.resetOf], by simp [State.resetOf], by simp [State.resetOf], by simp [State.resetOf]⟩

/-- HostSessionExecutesItsWords: the session of P1. -/
theorem witness_HostSessionExecutesItsWords :
    ({ State.resetOf .block with inputs := [1#80, 0x000000000000004A0012#80, 3#80].flatMap handshake } : State).resetStatus =
      .released ∧ (State.resetOf .block).commands = [] ∧ (State.resetOf .block).responses = [] := by decide +kernel

/-- WaitingCommandsAreExecuted: one word waiting, which any CMD_QUEUE_DEPTH has room for. -/
theorem witness_WaitingCommandsAreExecuted :
    ({ State.resetOf .perByte with commands := [3#80] } : State).resetStatus = .released ∧
    ({ State.resetOf .perByte with commands := [3#80] } : State).inputs = [] ∧
    ({ State.resetOf .perByte with commands := [3#80] } : State).responses.length +
      ({ State.resetOf .perByte with commands := [3#80] } : State).commands.length ≤ Config.commandsAhead + 1 :=
  ⟨rfl, rfl, by simp [State.resetOf]⟩

/-- InstancesAreIndependent: a platform of two instances, the second taking a step. -/
theorem witness_InstancesAreIndependent :
    platformStep [State.resetOf .perByte, { State.resetOf .block with inputs := [.issue 3#80] }] 1 =
      .next [State.resetOf .perByte, { State.resetOf .block with commands := [3#80] }] := rfl

/-- RunEndsWhenTheLastResponseIsTaken: S1's digest about to be taken with a wait and a take left over, a reset with it
untaken, and a command about to be issued. -/
theorem witness_RunEndsWhenTheLastResponseIsTaken :
    ({ State.resetOf .block with
      responses := [0x000000000000000100000000000000000000004A08#168], inputs := [.take, .wait, .take] } : State).inputs =
      .take :: [.wait, .take] ∧
    rspCode 0x000000000000000100000000000000000000004A08#168 ≠ 3#2 ∧
    rspPhase 0x000000000000000100000000000000000000004A08#168 ≠ 3#2 ∧
    (∀ cw, HostAction.issue cw ∉ [HostAction.wait, .take]) ∧
    ({ State.resetOf .perByte with
      responses := [0x000000000000000100000000000000000000004A08#168], inputs := [.assertReset] } : State).responses ≠ [] ∧
    ({ State.resetOf .block with inputs := [.issue 3#80] } : State).inputs = [.issue 3#80] :=
  ⟨rfl, by decide, by decide, by simp, by simp, rfl⟩

/-- Its second clause: a run that is not over, and is after its last response is taken. -/
theorem witness_RunEnds_by_a_take :
    ∃ t, step { State.resetOf .perByte with responses := [0#168], inputs := [.take] } = .next t ∧
      runIsOver { State.resetOf .perByte with responses := [0#168], inputs := [.take] } = false ∧
      runIsOver t = true :=
  ⟨_, rfl, rfl, rfl⟩

/-- R71 with R161: a run whose last response reset discarded is not over. -/
theorem test_reset_leaves_the_run_not_over :
    runIsOver ({ State.resetOf .perByte with responses := [0#168] } : State).assertReset = false := by decide +kernel

end Sys2Proof.Machine
end

section
/-! What a step does where the block accepts the oldest command word (30_encoding.md R71), and the statement about
legal words that follows. -/

namespace Sys2Proof.Machine

/-- R71's acceptance condition: out of reset with room for a response, the block executes its oldest word at once. -/
theorem blockMove_of_room {s : State} {cw : CommandWord} {rest : List CommandWord} (hcmd : s.commands = cw :: rest)
    (hrel : s.resetStatus = .released) (hroom : s.responses.length < Config.commandsAhead + 1) :
    blockMove s = executeWord cw { s with commands := rest } := by
  have hroom : s.hasRoom = true := s.hasRoom_iff.2 hroom
  simp [blockMove, hcmd, hrel, hroom]

/-- A waiting host leaves the step to the block, and the wait is used up. -/
theorem step_wait {s : State} {more : List HostAction} (h : s.inputs = .wait :: more) :
    step s = blockMove { s with inputs := more } :=
  step_cons h

/-- Settles O36: host idle or waiting, the step is the block's move; with room that move executes the oldest word; and
executing a legal word is `exec` of what it decodes to. -/
theorem stepRunsTheDecodedInstruction : Obligations.StepRunsTheDecodedInstruction := by
  intro s cw rest i hcmd hdec hrel hroom
  constructor
  · intro hidle
    calc step s = blockMove s := step_nil hidle
      _ = executeWord cw { s with commands := rest } := blockMove_of_room hcmd hrel hroom
      _ = exec i { s with commands := rest } := executeWord_ok hdec _
  · intro more hwait
    calc step s = blockMove { s with inputs := more } := step_wait hwait
      _ = executeWord cw { s with commands := rest, inputs := more } :=
        blockMove_of_room (s := { s with inputs := more }) hcmd hrel hroom
      _ = exec i { s with commands := rest, inputs := more } := executeWord_ok hdec _

end Sys2Proof.Machine
end

section
/-! What BLOCK storage reads as ACC and SHIFT (10_state.md R28): the cursor from SHIFT, and the two views
after clearing and after absorbing a byte, which are those of PER_BYTE storage (40_update.md R82, R93). -/

namespace Sys2Proof.Machine

@[simp] theorem HashStore.shift_block_val (buf accb : Vector Byte 160) (cur : Fin 160) :
    (HashStore.block buf accb cur).shift.val = (11 * cur.val) % 160 := rfl

/-- Settles O20: 131 is the inverse of 11 modulo 160. -/
theorem cursorFromShift : Obligations.CursorFromShift := by
  intro buf accb cur
  refine ⟨HashStore.shift_block_val buf accb cur, ?_⟩
  have hcur : cur.val < 160 := cur.isLt
  rw [HashStore.shift_block_val]
  omega

/-- FOLD of nothing but zero bytes adds nothing (40_update.md R94). -/
theorem foldFrom_replicate_zero (n : Nat) (s : Fin 160) (a : Word160) : foldFrom (List.replicate n 0#8) s a = a := by
  induction n generalizing s a with
  | zero => rfl
  | succ n ih => simp [List.replicate_succ, foldFrom, ih, routed_zero s.isLt]

/-- A byte XORed in at position `j` enters the FOLD at the shift of that position, `11 · j` on from the first. -/
theorem foldFrom_set_xor (xs : List Byte) (s : Fin 160) (a : Word160) (j : Nat) (hj : j < xs.length) (b : Byte) :
    foldFrom (xs.set j (xs[j] ^^^ b)) s a = foldFrom xs s a ^^^ routed b ((s.val + 11 * j) % 160) := by
  induction xs generalizing s a j with
  | nil => exact absurd hj (Nat.not_lt_zero j)
  | cons x xs ih =>
    cases j with
    | zero =>
      have hs : (s.val + 11 * 0) % 160 = s.val := Nat.mod_eq_of_lt s.isLt
      simp only [List.set_cons_zero, List.getElem_cons_zero, foldFrom, routed_xor x b s.isLt, hs]
      rw [foldFrom_acc, foldFrom_acc xs _ (a ^^^ routed x s.val)]
      ac_rfl
    | succ j =>
      have hshift : ((nextShift s).val + 11 * j) % 160 = (s.val + 11 * (j + 1)) % 160 := by
        rw [nextShift_val]; omega
      have hj' : j < xs.length := Nat.lt_of_succ_lt_succ hj
      simpa only [hshift, List.set_cons_succ, List.getElem_cons_succ, foldFrom] using
        ih (nextShift s) (a ^^^ routed x s.val) j hj'

theorem foldBlock_set_xor (x : Vector Byte 160) (cur : Fin 160) (b : Byte) :
    foldBlock (x.set cur.val (x[cur.val] ^^^ b)) = foldBlock x ^^^ routed b ((11 * cur.val) % 160) := by
  simpa [foldBlock, Vector.toList_set] using foldFrom_set_xor x.toList 0 0#160 cur.val (by simp) b

/-- A byte XORed into BUF is XORed into ACCB XOR BUF. -/
theorem xorBlock_set_xor (accb buf : Vector Byte 160) (cur : Fin 160) (b : Byte) :
    xorBlock accb (buf.set cur.val (buf[cur.val] ^^^ b)) =
      (xorBlock accb buf).set cur.val ((xorBlock accb buf)[cur.val] ^^^ b) := by
  ext1 i hi
  by_cases h : cur.val = i
  · subst h; simp [xorBlock, BitVec.xor_assoc]
  · simp [xorBlock, h]

@[simp] theorem xorBlock_replicate_zero (x : Vector Byte 160) : xorBlock x (Vector.replicate 160 0#8) = x := by
  ext1 i hi
  simp [xorBlock]

@[simp] theorem HashStore.cleared_acc (v : Variant) : (HashStore.cleared v).acc = 0#160 := by
  cases v with
  | perByte => rfl
  | block =>
    simp only [HashStore.cleared, HashStore.acc, xorBlock_replicate_zero, foldBlock, Vector.toList_replicate,
      foldFrom_replicate_zero]

@[simp] theorem HashStore.cleared_shift (v : Variant) : (HashStore.cleared v).shift = 0 := by
  cases v <;> rfl

/-- ABSORB's write to ACC, in either variant (40_update.md R82, R93): the block fold moves bytes from BUF to ACCB, and
`ACCB XOR BUF` does not see it. -/
@[simp] theorem HashStore.absorb_acc (h : HashStore) (b : Byte) :
    (h.absorb b).acc = h.acc ^^^ routed b h.shift.val := by
  cases h with
  | perByte acc shift => rfl
  | block buf accb cur =>
    have hfold : foldBlock (xorBlock accb (buf.set cur.val (buf[cur.val] ^^^ b))) =
        foldBlock (xorBlock accb buf) ^^^ routed b ((11 * cur.val) % 160) := by
      rw [xorBlock_set_xor, foldBlock_set_xor]
    rw [HashStore.absorb_block]
    by_cases hwrap : nextCur cur = 0
    · simpa [absorbBlock_wrap, hwrap, HashStore.acc] using hfold
    · simpa [absorbBlock_inside, hwrap, HashStore.acc] using hfold

/-- CUR on by one is SHIFT on by 11. -/
theorem HashStore.shift_block_nextCur (buf accb buf' accb' : Vector Byte 160) (cur : Fin 160) :
    (HashStore.block buf' accb' (nextCur cur)).shift = nextShift (HashStore.block buf accb cur).shift := by
  apply Fin.ext
  simp only [HashStore.shift_block_val, nextCur_val, nextShift_val]
  omega

/-- ABSORB's advance of SHIFT, in either variant (40_update.md R82, R93): at the wrap CUR goes on to 0 too. -/
@[simp] theorem HashStore.absorb_shift (h : HashStore) (b : Byte) : (h.absorb b).shift = nextShift h.shift := by
  cases h with
  | perByte acc shift => rfl
  | block buf accb cur =>
    rw [HashStore.absorb_block]
    by_cases hwrap : nextCur cur = 0
    · rw [absorbBlock_wrap _ _ _ _ hwrap, ← hwrap]
      exact shift_block_nextCur ..
    · rw [absorbBlock_inside _ _ _ _ hwrap]
      exact shift_block_nextCur ..

@[simp] theorem State.absorb_acc (s : State) (b : Byte) : (s.absorb b).acc = s.acc ^^^ routed b s.shift.val :=
  s.store.absorb_acc b

@[simp] theorem State.absorb_shift (s : State) (b : Byte) : (s.absorb b).shift = nextShift s.shift :=
  s.store.absorb_shift b

@[simp] theorem State.clearHash_acc (s : State) : s.clearHash.acc = 0#160 := HashStore.cleared_acc _

@[simp] theorem State.clearHash_shift (s : State) : s.clearHash.shift = 0 := HashStore.cleared_shift _

@[simp] theorem State.clearHash_variant (s : State) : s.clearHash.variant = s.variant := HashStore.cleared_variant _

/-- The storage after UPDATE's loop rests on the storage and the bytes alone. -/
theorem State.absorbAll_store (s : State) (bs : List Byte) :
    (s.absorbAll bs).store = bs.foldl HashStore.absorb s.store := by
  induction bs generalizing s with
  | nil => rfl
  | cons b bs ih => simp [ih]

/-- LEN after UPDATE's loop (40_update.md R81, R91). -/
theorem State.absorbAll_len (s : State) (bs : List Byte) :
    (s.absorbAll bs).len = s.len + BitVec.ofNat 64 bs.length := by
  induction bs generalizing s with
  | nil => simp
  | cons b bs ih =>
    simp only [State.absorbAll_cons, ih, State.absorb_len, List.length_cons, BitVec.ofNat_add]
    ac_rfl

end Sys2Proof.Machine
end

section
/-! The next state after each kind of command word, and what follows for PHASE (10_state.md R24): the phase after each
command, and that PHASE gates nothing. -/

namespace Sys2Proof.Machine

theorem executeWord_init {cw : CommandWord} (h : decode cw = .ok .init) (s : State) :
    executeWord cw s = .next (s.clearHash.respond okCode 0#160) := executeWord_ok h s

theorem executeWord_update {cw : CommandWord} {bytes : List Byte} (h : decode cw = .ok (.update bytes)) (s : State) :
    executeWord cw s = .next (((s.absorbAll bytes).setPhase .active).respond okCode 0#160) := executeWord_ok h s

theorem executeWord_final {cw : CommandWord} (h : decode cw = .ok .final) (s : State) :
    executeWord cw s = .next ((s.setPhase .finalized).respond okCode (digestOf s.acc s.len)) := executeWord_ok h s

/-- Settles O34, one kind of command word at a time. -/
theorem phaseFollowsTheCommand : Obligations.PhaseFollowsTheCommand := by
  intro cw s
  obtain ⟨t, ht⟩ := executeWord_total cw s
  refine ⟨t, ht, fun hinit => ?_, fun bytes hupdate => ?_, fun hfinal => ?_, fun c hillegal => ?_⟩
  · cases (executeWord_init hinit s).symm.trans ht; rfl
  · cases (executeWord_update hupdate s).symm.trans ht; rfl
  · cases (executeWord_final hfinal s).symm.trans ht; rfl
  · cases (executeWord_error hillegal s).symm.trans ht; rfl

/-- The same accumulator storage and LEN: all that a command reads, PHASE apart. -/
structure SameStorage (s u : State) : Prop where
  store : s.store = u.store
  len : s.len = u.len

/-- `t` and `w` hold one response more than `s` and `u` each, and the two are alike but for their PHASE field. -/
def AnsweredAlike (s u t w : State) : Prop :=
  ∃ r r', t.responses = s.responses ++ [r] ∧ w.responses = u.responses ++ [r'] ∧
    rspCode r = rspCode r' ∧ rspDigest r = rspDigest r'

/-- Answering with one CODE and one DIGEST, whatever the phase. -/
theorem AnsweredAlike.of_respond {s u t w : State} (ht : t.responses = s.responses) (hw : w.responses = u.responses)
    (code : BitVec 2) (digest : Word160) : AnsweredAlike s u (t.respond code digest) (w.respond code digest) :=
  ⟨responseWord code t.phase digest, responseWord code w.phase digest, by simp [ht], by simp [hw], by simp, by simp⟩

section SameStorage
variable {s u : State} (h : SameStorage s u)
include h

theorem SameStorage.acc : s.acc = u.acc := congrArg HashStore.acc h.store

theorem SameStorage.variant : s.variant = u.variant := congrArg HashStore.variant h.store

theorem SameStorage.absorbAll (bs : List Byte) : SameStorage (s.absorbAll bs) (u.absorbAll bs) :=
  ⟨by simp only [State.absorbAll_store, h.store], by simp only [State.absorbAll_len, h.len]⟩

theorem SameStorage.clearHash : SameStorage s.clearHash u.clearHash :=
  ⟨by simp [h.variant], rfl⟩

/-- One command word on two states of one storage: the storage stays the same, and the answers are alike. -/
theorem SameStorage.executeWord_alike (cw : CommandWord) :
    ∃ t w, executeWord cw s = .next t ∧ executeWord cw u = .next w ∧ SameStorage t w ∧
      AnsweredAlike s u t w := by
  rcases hd : decode cw with c | _ | bytes | _
  case error =>
    exact ⟨_, _, executeWord_error hd s, executeWord_error hd u, ⟨h.store, h.len⟩, .of_respond rfl rfl _ _⟩
  case ok.init =>
    exact ⟨_, _, executeWord_init hd s, executeWord_init hd u, ⟨h.clearHash.store, h.clearHash.len⟩,
      .of_respond rfl rfl _ _⟩
  case ok.update =>
    have hloop := h.absorbAll bytes
    exact ⟨_, _, executeWord_update hd s, executeWord_update hd u, ⟨hloop.store, hloop.len⟩,
      .of_respond (by simp) (by simp) _ _⟩
  case ok.final =>
    refine ⟨_, _, executeWord_final hd s, executeWord_final hd u, ⟨h.store, h.len⟩, ?_⟩
    rw [h.acc, h.len]
    exact .of_respond rfl rfl _ _

end SameStorage

/-- A command sequence on two states of one storage: the storage stays the same, and the answers are alike in order. -/
theorem SameStorage.executeAll_alike {s u : State} (h : SameStorage s u) (ws : List CommandWord) :
    ∃ t w rs rs', executeAll ws s = .next t ∧ executeAll ws u = .next w ∧ SameStorage t w ∧
      t.responses = s.responses ++ rs ∧ w.responses = u.responses ++ rs' ∧
      rs.map rspCode = rs'.map rspCode ∧ rs.map rspDigest = rs'.map rspDigest := by
  induction ws generalizing s u with
  | nil => exact ⟨s, u, [], [], rfl, rfl, h, by simp, by simp, rfl, rfl⟩
  | cons cw ws ih =>
    obtain ⟨s₁, u₁, hs₁, hu₁, h₁, r, r', hr, hr', hcode, hdigest⟩ := h.executeWord_alike cw
    obtain ⟨t, w, rs, rs', ht, hw, htw, hrs, hrs', hcodes, hdigests⟩ := ih h₁
    exact ⟨t, w, r :: rs, r' :: rs', (executeAll_cons hs₁).trans ht, (executeAll_cons hu₁).trans hw, htw,
      by simp [hrs, hr], by simp [hrs', hr'], by simp [hcode, hcodes], by simp [hdigest, hdigests]⟩

/-- Settles O35: writing PHASE leaves the storage and LEN, and nothing else is read. -/
theorem phaseGatesNothing : Obligations.PhaseGatesNothing := by
  intro s p ws
  have hsame : SameStorage s { s with phase := p } := ⟨rfl, rfl⟩
  obtain ⟨t, u, rs, rs', ht, hu, htu, hrs, hrs', hcodes, hdigests⟩ := hsame.executeAll_alike ws
  exact ⟨t, u, rs, rs', ht, hu, htu.store, htu.len, hrs, hrs', hcodes, hdigests⟩

end Sys2Proof.Machine
end

section
/-! Every step keeps the variant, and keeps two agreeing states of any variants in agreement
(10_state.md R28, R29; 40_update.md R95). -/

namespace Sys2Proof.Machine

section variant
variable {s t : State}

theorem executeWord_variant {cw : CommandWord} (h : executeWord cw s = .next t) : t.variant = s.variant := by
  rcases executeWord_cases cw s with ⟨_, hinit⟩ | ⟨bytes, _, hupdate⟩ | ⟨_, hfinal⟩ | ⟨c, _, hillegal⟩
  · cases hinit.symm.trans h; simp
  · cases hupdate.symm.trans h; simp
  · cases hfinal.symm.trans h; simp
  · cases hillegal.symm.trans h; rfl

theorem blockMove_variant (h : blockMove s = .next t) : t.variant = s.variant := by
  rcases blockMove_cases h with rfl | ⟨cw, rest, _, _, _, hexec⟩
  · rfl
  · exact (executeWord_variant hexec).trans rfl

theorem takeResponse_variant (h : takeResponse s = .next t) : t.variant = s.variant := by
  rcases takeResponse_cases h with ⟨_, rfl⟩ | ⟨r, rest, _, _, rfl⟩ <;> rfl

theorem hostAct_variant {a : HostAction} (h : hostAct a s = .next t) : t.variant = s.variant := by
  cases a with
  | issue cw => cases h; rfl
  | issueByOther cw => cases h
  | take => exact takeResponse_variant h
  | assertReset => cases h; exact HashStore.cleared_variant _
  | releaseReset => cases h; exact congrArg HashStore.variant s.releaseReset_store
  | wait => exact blockMove_variant h

/-- The variant is fixed for good (00_scope.md R7). -/
theorem step_variant (h : step s = .next t) : t.variant = s.variant := by
  cases hin : s.inputs with
  | nil => exact blockMove_variant ((step_nil hin).symm.trans h)
  | cons a rest => exact (hostAct_variant ((step_cons hin).symm.trans h)).trans rfl

end variant

/-- Two outcomes no host tells apart: agreeing next states, or the same stop. -/
inductive AgreeingOutcomes : Host.Outcome State Fault Refusal → Host.Outcome State Fault Refusal → Prop
  | next {t w : State} (h : Agree t w) : AgreeingOutcomes (.next t) (.next w)
  | fault (f : Fault) : AgreeingOutcomes (.fault f) (.fault f)
  | refused (r : Refusal) : AgreeingOutcomes (.refused r) (.refused r)

section blockMove
variable {s : State} {cw : CommandWord} {rest : List CommandWord}

theorem blockMove_of_noCommand (hcmd : s.commands = []) : blockMove s = .next s := by
  simp [blockMove, hcmd]

theorem blockMove_of_neverReset (hcmd : s.commands = cw :: rest) (hreset : s.resetStatus = .neverReset) :
    blockMove s = .fault .beforeFirstReset := by
  simp [blockMove, hcmd, hreset]

theorem blockMove_of_asserted (hreset : s.resetStatus = .asserted) : blockMove s = .next s := by
  unfold blockMove
  split
  · rfl
  · simp [hreset]

theorem blockMove_of_full (hreset : s.resetStatus = .released)
    (hfull : ¬ s.responses.length < Config.commandsAhead + 1) :
    blockMove s = .next s := by
  have hfull : s.hasRoom = false := by simpa using mt s.hasRoom_iff.1 hfull
  unfold blockMove
  split
  · rfl
  · simp [hreset, hfull]

end blockMove

section Agree
variable {s u : State} (h : Agree s u)
include h

theorem Agree.absorb (b : Byte) : Agree (s.absorb b) (u.absorb b) :=
  { h with
    acc := by simp [h.acc, h.shift]
    shift := by simp [h.shift]
    len := by simp [h.len] }

theorem Agree.setPhase (p : Phase) : Agree (s.setPhase p) (u.setPhase p) :=
  { h with phase := rfl }

theorem Agree.respond (code : BitVec 2) (digest : Word160) : Agree (s.respond code digest) (u.respond code digest) :=
  { h with responses := by simp [h.responses, h.phase] }

/-- Clearing forgets the variant's storage: what is left to agree on is the interface. -/
theorem Agree.clearHash : Agree s.clearHash u.clearHash :=
  { h with
    acc := by simp
    shift := by simp
    len := rfl
    phase := rfl }

theorem Agree.fateAtReset : s.fateAtReset = u.fateAtReset := by
  simp [State.fateAtReset, h.commands, h.responses, h.lastResponse]

theorem Agree.assertReset : Agree s.assertReset u.assertReset :=
  { h.clearHash with
    resetStatus := rfl
    commands := rfl
    responses := rfl
    lastResponse := h.fateAtReset }

theorem Agree.releaseReset : Agree s.releaseReset u.releaseReset := by
  by_cases hs : s.resetStatus = .asserted
  · rw [s.releaseReset_asserted hs, u.releaseReset_asserted (h.resetStatus ▸ hs)]
    exact { h with resetStatus := rfl }
  · rw [s.releaseReset_of_ne hs, u.releaseReset_of_ne (h.resetStatus ▸ hs)]
    exact h

end Agree

theorem Agree.absorbAll {s u : State} (h : Agree s u) (bs : List Byte) : Agree (s.absorbAll bs) (u.absorbAll bs) := by
  induction bs generalizing s u with
  | nil => exact h
  | cons b bs ih => exact ih (h.absorb b)

section AgreeingOutcomes
variable {s u : State} (h : Agree s u)
include h

/-- A command reads ACC, SHIFT, LEN and PHASE alone, on which the two agree. -/
theorem Agree.executeWord_agrees (cw : CommandWord) : AgreeingOutcomes (executeWord cw s) (executeWord cw u) := by
  rcases hd : decode cw with c | _ | bytes | _
  case error =>
    rw [executeWord_error hd, executeWord_error hd]
    exact .next (h.respond _ _)
  case ok.init =>
    rw [executeWord_init hd, executeWord_init hd]
    exact .next (h.clearHash.respond _ _)
  case ok.update =>
    rw [executeWord_update hd, executeWord_update hd]
    exact .next (((h.absorbAll bytes).setPhase _).respond _ _)
  case ok.final =>
    rw [executeWord_final hd, executeWord_final hd, h.acc, h.len]
    exact .next ((h.setPhase _).respond _ _)

/-- Whether the block moves, and on which word, rests on the interface, on which the two agree. -/
theorem Agree.blockMove_agrees : AgreeingOutcomes (blockMove s) (blockMove u) := by
  cases hcmd : s.commands with
  | nil =>
    rw [blockMove_of_noCommand hcmd, blockMove_of_noCommand (h.commands ▸ hcmd)]
    exact .next h
  | cons cw rest =>
    have hcmd' : u.commands = cw :: rest := h.commands ▸ hcmd
    cases hreset : s.resetStatus with
    | neverReset =>
      rw [blockMove_of_neverReset hcmd hreset, blockMove_of_neverReset hcmd' (h.resetStatus ▸ hreset)]
      exact .fault _
    | asserted =>
      rw [blockMove_of_asserted hreset, blockMove_of_asserted (h.resetStatus ▸ hreset)]
      exact .next h
    | released =>
      have hreset' : u.resetStatus = .released := h.resetStatus ▸ hreset
      by_cases hroom : s.responses.length < Config.commandsAhead + 1
      · rw [blockMove_of_room hcmd hreset hroom, blockMove_of_room hcmd' hreset' (h.responses ▸ hroom)]
        have hrest : Agree { s with commands := rest } { u with commands := rest } := { h with commands := rfl }
        exact hrest.executeWord_agrees cw
      · rw [blockMove_of_full hreset hroom, blockMove_of_full hreset' (h.responses ▸ hroom)]
        exact .next h

theorem Agree.takeResponse_agrees : AgreeingOutcomes (takeResponse s) (takeResponse u) := by
  unfold takeResponse
  rw [← h.responses]
  cases s.responses with
  | nil => exact .next h
  | cons r rest =>
    cases hres : reservedResponse r with
    | true => simpa [hres] using AgreeingOutcomes.refused .nonConformingResponse
    | false =>
      have htaken : Agree { s with responses := rest, lastResponse := .taken }
          { u with responses := rest, lastResponse := .taken } := { h with responses := rfl, lastResponse := rfl }
      simpa [hres] using AgreeingOutcomes.next htaken

theorem Agree.hostAct_agrees (a : HostAction) : AgreeingOutcomes (hostAct a s) (hostAct a u) := by
  cases a with
  | issue cw => exact .next { h with commands := congrArg (· ++ [cw]) h.commands }
  | issueByOther cw => exact .refused .mergedHosts
  | take => exact h.takeResponse_agrees
  | assertReset => exact .next h.assertReset
  | releaseReset => exact .next h.releaseReset
  | wait => exact h.blockMove_agrees

theorem Agree.step_agrees : AgreeingOutcomes (step s) (step u) := by
  cases hin : s.inputs with
  | nil =>
    rw [step_nil hin, step_nil (h.inputs ▸ hin)]
    exact h.blockMove_agrees
  | cons a rest =>
    rw [step_cons hin, step_cons (h.inputs ▸ hin)]
    have hrest : Agree { s with inputs := rest } { u with inputs := rest } := { h with inputs := rfl }
    exact hrest.hostAct_agrees a

end AgreeingOutcomes

/-- What an outcome agrees with is of its own kind. -/
theorem agreeingOutcomes_next_iff {t : State} {o : Host.Outcome State Fault Refusal} :
    AgreeingOutcomes (.next t) o ↔ ∃ w, o = .next w ∧ Agree t w :=
  ⟨fun | .next h => ⟨_, rfl, h⟩, fun ⟨_, ho, h⟩ => ho ▸ .next h⟩

theorem agreeingOutcomes_fault_iff {f : Fault} {o : Host.Outcome State Fault Refusal} :
    AgreeingOutcomes (.fault f) o ↔ o = .fault f :=
  ⟨fun | .fault _ => rfl, fun ho => ho ▸ .fault f⟩

theorem agreeingOutcomes_refused_iff {r : Refusal} {o : Host.Outcome State Fault Refusal} :
    AgreeingOutcomes (.refused r) o ↔ o = .refused r :=
  ⟨fun | .refused _ => rfl, fun ho => ho ▸ .refused r⟩

/-- Settles O18: agreement is kept by every operation a step is made of, and a step keeps either variant. -/
theorem agreementIsABisimulation : Obligations.AgreementIsABisimulation := by
  intro s u h
  refine ⟨fun t ht => ?_, fun f hf => ?_, fun r hr => ?_⟩
  · obtain ⟨w, hw, hagree⟩ := agreeingOutcomes_next_iff.1 (ht ▸ h.step_agrees)
    exact ⟨w, hw, hagree, step_variant ht, step_variant hw⟩
  · exact agreeingOutcomes_fault_iff.1 (hf ▸ h.step_agrees)
  · exact agreeingOutcomes_refused_iff.1 (hr ▸ h.step_agrees)

end Sys2Proof.Machine
end

section
/-! Command words executed one at a time, with one response each in their order (20_memory.md R49). -/

namespace Sys2Proof.Machine

/-- Every command word, legal or not, is answered by one response, put behind those already waiting. -/
theorem executeWord_answers (cw : CommandWord) (s : State) :
    ∃ t r, executeWord cw s = .next t ∧ t.responses = s.responses ++ [r] := by
  rcases executeWord_cases cw s with ⟨_, hinit⟩ | ⟨bytes, _, hupdate⟩ | ⟨_, hfinal⟩ | ⟨c, _, hillegal⟩
  · exact ⟨_, _, hinit, rfl⟩
  · exact ⟨_, _, hupdate, by rw [State.respond_responses, State.setPhase_responses, State.absorbAll_responses]⟩
  · exact ⟨_, _, hfinal, rfl⟩
  · exact ⟨_, _, hillegal, rfl⟩

/-- Settles O33, by induction on the words: the first word is executed on the state itself, and word `k + 1` is word
`k` of the rest, executed from the state the first word left. -/
theorem responsesComeInCommandOrder : Obligations.ResponsesComeInCommandOrder := by
  intro ws
  induction ws with
  | nil => exact fun s => ⟨s, [], rfl, by simp, rfl, fun k hk => absurd hk (Nat.not_lt_zero k)⟩
  | cons cw ws ih =>
    intro s
    obtain ⟨s₁, r, hs₁, hr⟩ := executeWord_answers cw s
    obtain ⟨t, rs, ht, hrs, hlen, horder⟩ := ih s₁
    refine ⟨t, r :: rs, (executeAll_cons hs₁).trans ht, by simp [hrs, hr], by simp [hlen], fun k hk => ?_⟩
    cases k with
    | zero => exact ⟨s, s₁, rfl, hs₁, by simp, by simp [hr]⟩
    | succ k =>
      obtain ⟨u, w, hu, hw, hur, hwr⟩ := horder k (Nat.lt_of_succ_lt_succ hk)
      exact ⟨u, w, (executeAll_cons hs₁).trans hu, hw, by simp [hur, hr], by simp [hwr, hr]⟩

end Sys2Proof.Machine
end

section
/-! The decoder and the encoder (30_encoding.md R60 to R65, R68): the fields of a command word as arithmetic on its
number, the decoder's answer from them, and the bytes the encoder puts in DATA. -/

namespace Sys2Proof

open Sys2Proof.Machine

/-! The fields of a command word (R60). -/

section fields
variable (cw : CommandWord)

theorem cwOpc_eq_iff (o : BitVec 4) : cwOpc cw = o ↔ cw.toNat % 16 = o.toNat := by
  simp [BitVec.toNat_eq, cwOpc]

theorem toNat_cwCnt : (cwCnt cw).toNat = cw.toNat / 16 % 16 := by
  simp [cwCnt, Nat.shiftRight_eq_div_pow]

theorem cwCnt_eq_iff (c : BitVec 4) : cwCnt cw = c ↔ cw.toNat / 16 % 16 = c.toNat := by
  rw [BitVec.toNat_eq, toNat_cwCnt]

theorem cwRsv_eq_iff (r : BitVec 8) : cwRsv cw = r ↔ cw.toNat / 256 % 256 = r.toNat := by
  simp [BitVec.toNat_eq, cwRsv, Nat.shiftRight_eq_div_pow]

theorem dataByte_cwData {j : Nat} (hj : j < 8) :
    dataByte (cwData cw) j = BitVec.ofNat 8 (cw.toNat / 2 ^ (8 * j + 16)) := by
  apply BitVec.eq_of_getLsbD_eq
  intro i hi
  have hbit : 8 * j + i < 64 := by omega
  have hpos : 16 + (8 * j + i) = i + (8 * j + 16) := by omega
  simp only [dataByte, cwData, BitVec.getLsbD_extractLsb', BitVec.getLsbD_ofNat, Nat.testBit_div_two_pow, hi, hbit,
    hpos, decide_true, Bool.true_and]
  rfl

/-- The bytes of a beat of at most eight (R64). -/
theorem beat_cwData {n : Nat} (hn : n ≤ 8) :
    beat (cwData cw) n = (List.range n).map fun j => BitVec.ofNat 8 (cw.toNat / 2 ^ (8 * j + 16)) :=
  List.map_congr_left fun _ hj => dataByte_cwData cw (Nat.lt_of_lt_of_le (List.mem_range.1 hj) hn)

end fields

/-! What the decoder answers (R65): a word is of one of five kinds, which exclude each other. -/

/-- OPC is UPDATE's, RSV is 0, and CNT is in range. -/
def UpdateHeader (cw : CommandWord) : Prop :=
  cw.toNat % 16 = 2 ∧ cw.toNat / 256 % 256 = 0 ∧ cw.toNat / 16 % 16 ≤ 8

/-- OPC is none of the three legal ones. -/
def ReservedOpc (cw : CommandWord) : Prop :=
  cw.toNat % 16 ≠ 1 ∧ cw.toNat % 16 ≠ 2 ∧ cw.toNat % 16 ≠ 3

/-- OPC is legal, and RSV is not 0 or CNT is out of range. -/
def ReservedField (cw : CommandWord) : Prop :=
  (cw.toNat % 16 = 1 ∨ cw.toNat % 16 = 2 ∨ cw.toNat % 16 = 3) ∧
    (cw.toNat / 256 % 256 ≠ 0 ∨
      (cw.toNat % 16 = 2 ∧ 8 < cw.toNat / 16 % 16) ∨
      (cw.toNat % 16 ≠ 2 ∧ cw.toNat / 16 % 16 ≠ 0))

/-- The decoder's cases, each with what it answers. -/
theorem decode_cases (cw : CommandWord) :
    (cw.toNat % 65536 = 1 ∧ decode cw = .ok .init) ∨ (cw.toNat % 65536 = 3 ∧ decode cw = .ok .final) ∨
    (UpdateHeader cw ∧ decode cw = .ok (.update (beat (cwData cw) (cw.toNat / 16 % 16)))) ∨
    (ReservedOpc cw ∧ decode cw = .error .illegalOpc) ∨ (ReservedField cw ∧ decode cw = .error .illegalField) := by
  simp only [decode, ne_eq, cwOpc_eq_iff, cwRsv_eq_iff, cwCnt_eq_iff, toNat_cwCnt, BitVec.toNat_ofNat,
    Config.beatBytes, UpdateHeader, ReservedOpc, ReservedField]
  split_ifs with hopc hrsv hupdate hcnt hcnt hinit <;> simp <;> omega

/-- Settles O3: each kind of word has its own answer, and the arithmetic tells the kinds apart. -/
theorem decoderReadsEveryWord : Obligations.DecoderReadsEveryWord := by
  intro cw
  have hkinds := decode_cases cw
  simp only [UpdateHeader, ReservedOpc, ReservedField] at hkinds
  rcases hkinds with ⟨hkind, hd⟩ | ⟨hkind, hd⟩ | ⟨hkind, hd⟩ | ⟨hkind, hd⟩ | ⟨hkind, hd⟩
  case inr.inr.inl =>
    rw [beat_cwData cw hkind.2.2] at hd
    refine ⟨?_, ?_, fun bytes => ?_, ?_, ?_⟩ <;> simp [hd, hkind, eq_comm] <;> omega
  all_goals refine ⟨?_, ?_, fun bytes => ?_, ?_, ?_⟩ <;> simp [hd] <;> omega

/-! What the encoder writes reads back (R63, R64, R68). -/

theorem dataByte_packBytes_zero (b : Byte) (bs : List Byte) : dataByte (packBytes (b :: bs)) 0 = b := by
  apply BitVec.eq_of_getLsbD_eq
  intro i hi
  have hdata : i < 64 := by omega
  simp [packBytes, dataByte, hi, hdata]

theorem dataByte_packBytes_succ (b : Byte) (bs : List Byte) {j : Nat} (hj : j < 7) :
    dataByte (packBytes (b :: bs)) (j + 1) = dataByte (packBytes bs) j := by
  apply BitVec.eq_of_getLsbD_eq
  intro i hi
  have hdata : 8 * (j + 1) + i < 64 := by omega
  have habove : ¬ 8 * (j + 1) + i < 8 := by omega
  have hpos : 8 * (j + 1) + i - 8 = 8 * j + i := by omega
  have hpad : b.getLsbD (8 * (j + 1) + i) = false := BitVec.getLsbD_of_ge _ _ (by omega)
  simp only [packBytes, dataByte, BitVec.getLsbD_extractLsb', BitVec.getLsbD_or, BitVec.getLsbD_shiftLeft,
    BitVec.getLsbD_setWidth, BitVec.zeroExtend, hi, hdata, habove, hpos, hpad, decide_true, decide_false,
    Bool.true_and, Bool.not_false, Bool.and_false, Bool.or_false]

/-- A list of at most eight bytes is the beat of the DATA it is packed in. -/
theorem beat_packBytes {bs : List Byte} (hlen : bs.length ≤ 8) : beat (packBytes bs) bs.length = bs := by
  induction bs with
  | nil => rfl
  | cons b bs ih =>
    have hlen : bs.length < 8 := hlen
    have htail : beat (packBytes bs) bs.length = bs := ih hlen.le
    have hshift : ∀ j ∈ List.range bs.length,
        dataByte (packBytes (b :: bs)) (j + 1) = dataByte (packBytes bs) j := fun j hj =>
      dataByte_packBytes_succ b bs (by have := List.mem_range.1 hj; omega)
    calc beat (packBytes (b :: bs)) (bs.length + 1)
        = dataByte (packBytes (b :: bs)) 0 ::
            (List.range bs.length).map fun j => dataByte (packBytes (b :: bs)) (j + 1) := by
          simp [beat, List.range_succ_eq_map, Function.comp_def]
      _ = b :: beat (packBytes bs) bs.length := by
          rw [dataByte_packBytes_zero, List.map_congr_left hshift, beat]
      _ = b :: bs := by rw [htail]

theorem decode_encode_update {bs : List Byte} (hlen : bs.length ≤ 8) :
    decode (encode (.update bs)) = .ok (.update bs) := by
  obtain ⟨hopc, hcnt, hrsv⟩ := Laws.EncodedHeader.update bs ((Instr.wellFormed_update bs).2 hlen)
  simp only [Laws.opcOf, Laws.cntOf] at hopc hcnt
  have hdata : cwData (encode (.update bs)) = packBytes bs := Laws.cwData_commandWord _ _ _
  simp [decode, hopc, hcnt, hrsv, hdata, Config.beatBytes, hlen, beat_packBytes hlen]

/-- Settles O2: INIT and FINAL have one encoding each; UPDATE's header carries the count, and DATA the bytes. -/
theorem decodeUndoesEncode : Obligations.DecodeUndoesEncode := by
  intro i hwf
  cases i with
  | init => decide
  | update bytes => exact decode_encode_update ((Instr.wellFormed_update bytes).1 hwf)
  | final => decide

/-- Settles O1: the nine words are evaluated. -/
theorem writtenWordsDecode : Obligations.WrittenWordsDecode := by
  unfold Obligations.WrittenWordsDecode
  decide

/-- What the decoder reads is well formed: it takes no CNT above 8 (R62). -/
theorem wellFormed_of_decode {cw : CommandWord} {i : Instr} (hd : decode cw = .ok i) : i.wellFormed = true := by
  cases i with
  | init => rfl
  | final => rfl
  | update bytes =>
    obtain ⟨_, _, hcnt, hbytes⟩ := ((decoderReadsEveryWord cw).2.2.1 bytes).1 hd
    exact (Instr.wellFormed_update bytes).2 (by simpa [hbytes] using hcnt)

/-- Settles O5: executing a word rests on what it decodes to alone, and the encoder's word decodes to the same. -/
theorem decodedWordsAreWellFormed : Obligations.DecodedWordsAreWellFormed := by
  intro cw i hd
  have hwf : i.wellFormed = true := wellFormed_of_decode hd
  exact ⟨hwf, fun s => (executeWord_ok (decodeUndoesEncode i hwf) s).trans (executeWord_ok hd s).symm⟩

end Sys2Proof
end

section
/-! The response word as a number and as bytes, and the one response every command word gets (30_encoding.md R66,
R67). -/

namespace Sys2Proof.Machine

/-- Digest byte k of a response word is lane k of its DIGEST field (R66; 20_memory.md R43). -/
theorem rspDigestByte_eq_lane (r : ResponseWord) {k : Nat} (hk : k < 20) :
    rspDigestByte r k = lane (rspDigest r) k := by
  apply BitVec.eq_of_getLsbD_eq
  intro i hi
  have hbit : 8 * k + i < 160 := by omega
  have hpos : 8 * k + 8 + i = 8 + (8 * k + i) := by omega
  rw [getLsbD_lane _ _ _ hi]
  simp only [rspDigestByte, rspDigest, BitVec.getLsbD_extractLsb', hi, hbit, hpos, decide_true, Bool.true_and]

/-- Bits appended below are added to a multiple of their weight. -/
theorem toNat_append_eq_add {m n : Nat} (x : BitVec m) (y : BitVec n) :
    (x ++ y).toNat = x.toNat * 2 ^ n + y.toNat := by
  rw [BitVec.toNat_append, ← Nat.shiftLeft_add_eq_or_of_lt y.isLt, Nat.shiftLeft_eq]

theorem toNat_responseWord (code : BitVec 2) (p : Phase) (d : Word160) :
    (responseWord code p d).toNat = d.toNat * 256 + p.bits.toNat * 4 + code.toNat := by
  simp only [responseWord, toNat_append_eq_add, BitVec.toNat_ofNat]
  omega

/-- Settles O31: the fields are appended in order, and a digest byte lies within the DIGEST field. -/
theorem responseWordLayout : Obligations.ResponseWordLayout := by
  intro code p d
  refine ⟨toNat_responseWord code p d, fun k hk => ?_⟩
  rw [rspDigestByte_eq_lane _ hk, rspDigest_responseWord]

theorem finalWord_iff (cw : CommandWord) : finalWord cw = true ↔ decode cw = .ok .final := by
  rcases hd : decode cw with c | _ | bytes | _ <;> simp [finalWord, hd]

/-- The CODE a command word is answered with (R67). -/
def answerCode (cw : CommandWord) : BitVec 2 :=
  match decode cw with
  | .ok _ => okCode
  | .error c => illegalCode c

theorem answerCode_of_ok {cw : CommandWord} {i : Instr} (hd : decode cw = .ok i) : answerCode cw = okCode := by
  simp [answerCode, hd]

theorem answerCode_of_error {cw : CommandWord} {c : IllegalCode} (hd : decode cw = .error c) :
    answerCode cw = illegalCode c := by
  simp [answerCode, hd]

/-- The CODE says whether the word is legal, and what is illegal about it (R67; 60_exceptions.md R141). -/
theorem answerCode_spec (cw : CommandWord) :
    answerCode cw ≠ 3#2 ∧ (answerCode cw = 0#2 ↔ legalWord cw = true) ∧
    (answerCode cw = 1#2 ↔ decode cw = .error .illegalOpc) ∧
    (answerCode cw = 2#2 ↔ decode cw = .error .illegalField) := by
  rcases hd : decode cw with c | i
  case error => cases c <;> simp [answerCode_of_error hd, legalWord, hd, illegalCode]
  case ok => simp [answerCode_of_ok hd, legalWord, hd, okCode]

/-- The DIGEST a command word is answered with, in the state after it (R66). -/
def answerDigest (cw : CommandWord) (t : State) : Word160 :=
  if finalWord cw = true then digestOf t.acc t.len else 0#160

/-- Every command word is answered by one response, with CODE and DIGEST as R66 and R67 give them and the PHASE after
the command, and leaves the rest of the interface alone. -/
theorem executeWord_answer (cw : CommandWord) (s : State) :
    ∃ t, executeWord cw s = .next t ∧ SameInterface s t ∧
      t.responses = s.responses ++ [responseWord (answerCode cw) t.phase (answerDigest cw t)] := by
  rcases hd : decode cw with c | _ | bytes | _
  case error =>
    exact ⟨_, executeWord_error hd s, ⟨rfl, rfl, rfl, rfl, rfl⟩,
      by simp [State.raiseIllegal, answerCode_of_error hd, answerDigest, finalWord_iff, hd]⟩
  case ok.init =>
    exact ⟨_, executeWord_init hd s, ⟨by simp, rfl, rfl, rfl, rfl⟩,
      by simp [answerCode_of_ok hd, answerDigest, finalWord_iff, hd]⟩
  case ok.update =>
    exact ⟨_, executeWord_update hd s, ⟨by simp, by simp, by simp, by simp, by simp⟩,
      by simp [answerCode_of_ok hd, answerDigest, finalWord_iff, hd]⟩
  case ok.final =>
    exact ⟨_, executeWord_final hd s, ⟨rfl, rfl, rfl, rfl, rfl⟩,
      by simp [answerCode_of_ok hd, answerDigest, finalWord_iff, hd]⟩

/-- Settles O32: the answer's fields, read back from the response word. -/
theorem oneResponsePerCommand : Obligations.OneResponsePerCommand := by
  intro cw s
  obtain ⟨t, ht, hsame, hresp⟩ := executeWord_answer cw s
  obtain ⟨hcode, hlegal, hopc, hfield⟩ := answerCode_spec cw
  refine ⟨t, _, ht, hresp, by simp, by simp [Phase.bits_ne_three], by simp, by simpa using hcode, by simpa using hlegal,
    by simpa using hopc, by simpa using hfield, fun hfinal => ?_, fun hfinal => ?_,
    fun k hk => rspDigestByte_eq_lane _ hk, hsame⟩
  · simp [answerDigest, hfinal, digestOf, Config.lenFoldOffset]
  · simp [answerDigest, hfinal]

end Sys2Proof.Machine
end

section
/-! The host's actions and the idle block (30_encoding.md R71), and the interface invariant, which every step keeps
(30_encoding.md R66, R67, R71; 70_reset_and_hazards.md R161). -/

namespace Sys2Proof.Machine

theorem reservedResponse_eq_false {r : ResponseWord} (hcode : rspCode r ≠ 3#2) (hphase : rspPhase r ≠ 3#2) :
    reservedResponse r = false := by
  simp [reservedResponse, hcode, hphase]

theorem takeResponse_of_cons {s : State} {r : ResponseWord} {rs : List ResponseWord} (h : s.responses = r :: rs)
    (hr : reservedResponse r = false) :
    takeResponse s = .next { s with responses := rs, lastResponse := .taken } := by
  simp [takeResponse, h, hr]

/-- A step in which the host issues a word. -/
theorem step_issue {s : State} {cw : CommandWord} {more : List HostAction} (h : s.inputs = .issue cw :: more) :
    step s = .next { s with commands := s.commands ++ [cw], inputs := more } :=
  step_cons h

/-- A step in which the host takes a response that is not reserved. -/
theorem step_take {s : State} {r : ResponseWord} {rs : List ResponseWord} {more : List HostAction}
    (h : s.inputs = .take :: more) (hrs : s.responses = r :: rs) (hr : reservedResponse r = false) :
    step s = .next { s with responses := rs, inputs := more, lastResponse := .taken } :=
  (step_cons h).trans (takeResponse_of_cons (s := { s with inputs := more }) hrs hr)

/-- Settles O38: the host's actions by their own steps, and the two idle cases by the block's move. -/
theorem hostActionsAndIdleBlock : Obligations.HostActionsAndIdleBlock := by
  refine ⟨fun s cw more hin => step_issue hin, fun s r rs more hin hrs hcode hphase => ?_,
    fun s hidle hcmd => ?_, fun s hidle hrel hfull => ?_⟩
  · exact step_take hin hrs (reservedResponse_eq_false hcode hphase)
  · exact (step_nil hidle).trans (blockMove_of_noCommand hcmd)
  · exact (step_nil hidle).trans (blockMove_of_full hrel (Nat.not_lt.2 hfull))

/-- What a command word is answered with conforms: a DIGEST other than zero stands only in the answer to a FINAL. -/
theorem conformingResponse_answer (cw : CommandWord) (t : State) (hphase : finalWord cw = true → t.phase = .finalized) :
    conformingResponse (responseWord (answerCode cw) t.phase (answerDigest cw t)) = true := by
  have hcode : answerCode cw ≠ 3#2 := (answerCode_spec cw).1
  by_cases hfinal : finalWord cw = true
  · have hok : answerCode cw = okCode := answerCode_of_ok ((finalWord_iff cw).1 hfinal)
    rw [hok] at hcode ⊢
    simp [conformingResponse, hcode, Phase.bits_ne_three, hphase hfinal]
  · simp [conformingResponse, hcode, Phase.bits_ne_three, answerDigest, hfinal]

/-- Asserting reset empties the response channel, so the invariant holds whatever the state was before. -/
theorem goodInterface_assertReset (s : State) : GoodInterface s.assertReset :=
  ⟨by simp, by simp, by simp, by simp⟩

section GoodInterface
variable {s t : State} (h : GoodInterface s)
include h

/-- The invariant speaks of the responses, the reset input and PHASE alone. -/
theorem GoodInterface.congr (hresp : t.responses = s.responses) (hreset : t.resetStatus = s.resetStatus)
    (hphase : t.phase = s.phase) : GoodInterface t := by
  obtain ⟨hconf, hdepth, hempty, hnewest⟩ := h
  exact ⟨hresp ▸ hconf, hresp ▸ hdepth, hresp ▸ hreset ▸ hempty, hresp ▸ hphase ▸ hnewest⟩

theorem GoodInterface.executeWord_keeps {cw : CommandWord} (hrel : s.resetStatus = .released)
    (hroom : s.responses.length < Config.commandsAhead + 1) (ht : executeWord cw s = .next t) : GoodInterface t := by
  obtain ⟨t', ht', hsame, hresp⟩ := executeWord_answer cw s
  cases ht'.symm.trans ht
  have hconf := conformingResponse_answer cw t fun hfinal => by
    obtain ⟨w, hw, -, -, hphase, -⟩ := phaseFollowsTheCommand cw s
    cases hw.symm.trans ht
    exact hphase ((finalWord_iff cw).1 hfinal)
  exact
    { conforming := by
        simpa [hresp, or_imp, forall_and] using And.intro h.conforming hconf
      withinDepth := by simpa [hresp] using hroom
      emptyInReset := fun hreset => absurd (hsame.resetStatus.trans hrel) hreset
      newestShowsPhase := by simp [hresp] }

theorem GoodInterface.blockMove_keeps (ht : blockMove s = .next t) : GoodInterface t := by
  rcases blockMove_cases ht with rfl | ⟨cw, rest, _, hrel, hroom, hexec⟩
  · exact h
  · have hrest : GoodInterface { s with commands := rest } := h.congr rfl rfl rfl
    exact hrest.executeWord_keeps hrel (s.hasRoom_iff.1 hroom) hexec

theorem GoodInterface.takeResponse_keeps (ht : takeResponse s = .next t) : GoodInterface t := by
  rcases takeResponse_cases ht with ⟨_, rfl⟩ | ⟨r, rest, hresp, _, rfl⟩
  · exact h
  · obtain ⟨hconf, hdepth, hempty, hnewest⟩ := h
    rw [hresp] at hconf hdepth hempty hnewest
    exact
      { conforming := fun r' hr' => hconf r' (List.mem_cons_of_mem r hr')
        withinDepth := (Nat.le_succ _).trans hdepth
        emptyInReset := fun hreset => absurd (hempty hreset) (List.cons_ne_nil r rest)
        newestShowsPhase := fun r' hr' => hnewest r' (by simp_all [List.getLast?_cons]) }

/-- Releasing reset changes the reset input alone, and no response waits where it does. -/
theorem GoodInterface.releaseReset_keeps : GoodInterface s.releaseReset := by
  by_cases hreset : s.resetStatus = .asserted
  · rw [s.releaseReset_asserted hreset]
    exact { h with emptyInReset := fun hne => absurd rfl hne }
  · rwa [s.releaseReset_of_ne hreset]

theorem GoodInterface.hostAct_keeps {a : HostAction} (ht : hostAct a s = .next t) : GoodInterface t := by
  cases a with
  | issue cw => cases ht; exact h.congr rfl rfl rfl
  | issueByOther cw => cases ht
  | take => exact h.takeResponse_keeps ht
  | assertReset => cases ht; exact goodInterface_assertReset s
  | releaseReset => cases ht; exact h.releaseReset_keeps
  | wait => exact h.blockMove_keeps ht

theorem GoodInterface.step_keeps (ht : step s = .next t) : GoodInterface t := by
  cases hin : s.inputs with
  | nil => exact h.blockMove_keeps ((step_nil hin).symm.trans ht)
  | cons a rest =>
    have hrest : GoodInterface { s with inputs := rest } := h.congr rfl rfl rfl
    exact hrest.hostAct_keeps ((step_cons hin).symm.trans ht)

end GoodInterface

/-- Settles O43: the block's moves and the host's actions keep the invariant, and a step is one of them. -/
theorem stepKeepsGoodInterface : Obligations.StepKeepsGoodInterface :=
  fun _ _ h ht => h.step_keeps ht

end Sys2Proof.Machine
end

section
/-! Where a run ends: at the host's taking of the last response, and nowhere else (30_encoding.md R71;
70_reset_and_hazards.md R161). -/

namespace Sys2Proof.Machine

theorem any_isIssue_eq_false_iff (as : List HostAction) :
    as.any HostAction.isIssue = false ↔ ∀ cw, .issue cw ∉ as := by
  induction as with
  | nil => simp
  | cons a as ih => cases a <;> simp [HostAction.isIssue, ih, forall_and]

theorem runIsOver_iff (s : State) :
    runIsOver s = true ↔
      s.commands = [] ∧ s.responses = [] ∧ s.lastResponse = .taken ∧ ∀ cw, .issue cw ∉ s.inputs := by
  simp only [runIsOver, Bool.and_eq_true, List.isEmpty_iff, decide_eq_true_eq, Bool.not_eq_true', and_assoc,
    any_isIssue_eq_false_iff]

theorem runIsOver_eq_false_of {s : State} (h : s.commands ≠ [] ∨ s.lastResponse ≠ .taken) : runIsOver s = false := by
  rw [← Bool.not_eq_true, runIsOver_iff]
  rintro ⟨hcmd, -, hlast, -⟩
  exact h.elim (· hcmd) (· hlast)

/-- Before an action that issues nothing a run is over as soon as it is over without the action. -/
theorem runIsOver_of_rest {s : State} {a : HostAction} {rest : List HostAction} (hin : s.inputs = a :: rest)
    (ha : a.isIssue = false) (h : runIsOver { s with inputs := rest } = true) : runIsOver s = true := by
  obtain ⟨hcmd, hresp, hlast, hissue⟩ := (runIsOver_iff _).1 h
  refine (runIsOver_iff s).2 ⟨hcmd, hresp, hlast, fun cw hmem => ?_⟩
  rw [hin] at hmem
  rcases List.mem_cons.1 hmem with rfl | hmem
  · cases ha
  · exact hissue cw hmem

/-- A move of the block ends no run: the command it executes leaves a response to take. -/
theorem runIsOver_of_blockMove {s t : State} (ht : blockMove s = .next t) (hover : runIsOver t = true) :
    runIsOver s = true := by
  rcases blockMove_cases ht with rfl | ⟨cw, rest, _, _, _, hexec⟩
  · exact hover
  · obtain ⟨t', r, ht', hresp⟩ := executeWord_answers cw { s with commands := rest }
    cases ht'.symm.trans hexec
    have hnone : t.responses = [] := ((runIsOver_iff t).1 hover).2.1
    simp [hresp] at hnone

/-- Asserting reset ends no run: with nothing in flight it leaves the last response's fate, and else it was
discarded. -/
theorem runIsOver_of_assertReset {s : State} (hover : runIsOver s.assertReset = true) : runIsOver s = true := by
  obtain ⟨-, -, hfate, hissue⟩ := (runIsOver_iff _).1 hover
  rw [State.assertReset_lastResponse] at hfate
  by_cases hidle : s.commands = [] ∧ s.responses = []
  · rw [s.fateAtReset_of_idle hidle.1 hidle.2] at hfate
    exact (runIsOver_iff s).2 ⟨hidle.1, hidle.2, hfate, hissue⟩
  · rw [s.fateAtReset_of_inFlight (by tauto)] at hfate
    cases hfate

theorem runIsOver_releaseReset (s : State) : runIsOver s.releaseReset = runIsOver s := by
  simp [runIsOver]

/-- A step into the end of a run, from where it is not over, takes the one response in flight. -/
theorem step_into_runIsOver {s t : State} (ht : step s = .next t) (hs : runIsOver s = false)
    (hover : runIsOver t = true) : s.commands = [] ∧ (∃ r, s.responses = [r]) ∧ s.inputs = .take :: t.inputs := by
  have hs : ¬ runIsOver s = true := Bool.not_eq_true _ ▸ hs
  cases hin : s.inputs with
  | nil => exact absurd (runIsOver_of_blockMove ((step_nil hin).symm.trans ht) hover) hs
  | cons a rest =>
    have ht : hostAct a { s with inputs := rest } = .next t := (step_cons hin).symm.trans ht
    cases a with
    | issue cw =>
      cases ht
      simp [runIsOver] at hover
    | issueByOther cw => cases ht
    | take =>
      rcases takeResponse_cases ht with ⟨_, rfl⟩ | ⟨r, rs, hresp, _, rfl⟩
      · exact absurd (runIsOver_of_rest hin rfl hover) hs
      · obtain ⟨hcmd, hnone, -, -⟩ := (runIsOver_iff _).1 hover
        exact ⟨hcmd, ⟨r, hresp.trans (congrArg (r :: ·) hnone)⟩, rfl⟩
    | assertReset =>
      cases ht
      exact absurd (runIsOver_of_rest hin rfl (runIsOver_of_assertReset hover)) hs
    | releaseReset =>
      cases ht
      exact absurd (runIsOver_of_rest hin rfl (runIsOver_releaseReset _ ▸ hover)) hs
    | wait => exact absurd (runIsOver_of_rest hin rfl (runIsOver_of_blockMove ht hover)) hs

/-- Settles O49: the take leaves nothing in flight, a discarding reset leaves a fate other than taken, and an issued
word stays in flight. -/
theorem runEndsWhenTheLastResponseIsTaken : Obligations.RunEndsWhenTheLastResponseIsTaken := by
  refine ⟨fun s r more hin hcmd hresp hcode hphase hissue => ?_, fun s t ht hs hover => step_into_runIsOver ht hs hover,
    fun s more hin hflight => ?_, fun s cw more hin => ?_, fun v => ?_⟩
  · exact ⟨_, step_take hin hresp (reservedResponse_eq_false hcode hphase),
      (runIsOver_iff _).2 ⟨hcmd, rfl, rfl, hissue⟩⟩
  · have hfate : State.fateAtReset { s with inputs := more } = .discarded := State.fateAtReset_of_inFlight _ hflight
    exact ⟨_, step_cons hin, runIsOver_eq_false_of (.inr (by simp [hfate]))⟩
  · exact ⟨_, step_issue hin, runIsOver_eq_false_of (.inl (by simp))⟩
  · exact runIsOver_eq_false_of (.inr (by simp))

end Sys2Proof.Machine
end

section
/-! A host session of issue, wait and take (30_encoding.md R71): each command word takes three steps, and what the words
do rests on nothing that the host's side of the interface holds. -/

namespace Sys2Proof.Machine

/-- The response channel, the host's coming actions and the last response's fate, put to given values. -/
def State.putHostSide (s : State) (rs : List ResponseWord) (as : List HostAction) (fate : ResponseFate) : State :=
  { s with responses := rs, inputs := as, lastResponse := fate }

section putHostSide
variable (s : State) (rs : List ResponseWord) (as : List HostAction) (fate : ResponseFate)

theorem State.putHostSide_absorbAll (bytes : List Byte) :
    (s.putHostSide rs as fate).absorbAll bytes = (s.absorbAll bytes).putHostSide rs as fate := by
  induction bytes generalizing s with
  | nil => rfl
  | cons b bytes ih => exact ih (s.absorb b)

end putHostSide

theorem SameInterface.refl (s : State) : SameInterface s s := ⟨rfl, rfl, rfl, rfl, rfl⟩

theorem SameInterface.trans {s t u : State} (h : SameInterface s t) (h' : SameInterface t u) : SameInterface s u :=
  ⟨h'.variant.trans h.variant, h'.resetStatus.trans h.resetStatus, h'.commands.trans h.commands,
    h'.inputs.trans h.inputs, h'.lastResponse.trans h.lastResponse⟩

/-- Whatever the host's side of the interface, `run` takes the rest of `s` to the rest of `t` and puts `answers` last on
the response channel. -/
def SameAnswers (run : State → Host.Outcome State Fault Refusal) (s t : State) (answers : List ResponseWord) : Prop :=
  ∀ rs as fate, run (s.putHostSide rs as fate) = .next (t.putHostSide (rs ++ answers) as fate)

theorem executeWord_sameInterface {cw : CommandWord} {s t : State} (ht : executeWord cw s = .next t) :
    SameInterface s t := by
  obtain ⟨t', ht', hsame, -⟩ := executeWord_answer cw s
  cases ht'.symm.trans ht
  exact hsame

/-- One command word reads the hash state and PHASE alone, and adds one answer, which the host can take, to the
interface. -/
theorem executeWord_sameAnswers (cw : CommandWord) (s : State) :
    ∃ t r, executeWord cw s = .next t ∧ SameAnswers (executeWord cw) s t [r] ∧ reservedResponse r = false := by
  have hok : okCode ≠ 3#2 := by decide
  rcases hd : decode cw with c | _ | bytes | _
  case error =>
    exact ⟨_, responseWord (illegalCode c) s.phase 0#160, executeWord_error hd s, fun _ _ _ => executeWord_error hd _,
      reservedResponse_responseWord _ _ _ (illegalCode_ne_three c)⟩
  case ok.init =>
    exact ⟨_, responseWord okCode .created 0#160, executeWord_init hd s, fun _ _ _ => executeWord_init hd _,
      reservedResponse_responseWord _ _ _ hok⟩
  case ok.update =>
    refine ⟨_, responseWord okCode .active 0#160, executeWord_update hd s,
      fun _ _ _ => (executeWord_update hd _).trans ?_, reservedResponse_responseWord _ _ _ hok⟩
    rw [State.putHostSide_absorbAll]
    rfl
  case ok.final =>
    exact ⟨_, responseWord okCode .finalized (digestOf s.acc s.len), executeWord_final hd s,
      fun _ _ _ => executeWord_final hd _, reservedResponse_responseWord _ _ _ hok⟩

/-- The same of a command sequence. -/
theorem executeAll_sameAnswers (ws : List CommandWord) (s : State) :
    ∃ t answers, executeAll ws s = .next t ∧ SameInterface s t ∧ SameAnswers (executeAll ws) s t answers := by
  induction ws generalizing s with
  | nil => exact ⟨s, [], rfl, .refl s, fun rs as fate => by simp⟩
  | cons cw ws ih =>
    obtain ⟨s₁, r, hs₁, hword, -⟩ := executeWord_sameAnswers cw s
    obtain ⟨t, answers, ht, hsame, hrest⟩ := ih s₁
    refine ⟨t, r :: answers, (executeAll_cons hs₁).trans ht, (executeWord_sameInterface hs₁).trans hsame,
      fun rs as fate => ?_⟩
    simpa using (executeAll_cons (hword rs as fate)).trans (hrest (rs ++ [r]) as fate)

/-- Steps of the machine one after another. -/
theorem run_succ {s t : State} (h : step s = .next t) (n : Nat) :
    Host.Core.run core (n + 1) s = Host.Core.run core n t := by
  have h : core.step s = .next t := h
  simp only [Host.Core.run, h]

/-- The interface at rest: out of reset, with no command and no response on the channels. -/
structure AtRest (s : State) : Prop where
  released : s.resetStatus = .released
  noCommand : s.commands = []
  noResponse : s.responses = []

/-- One round of the session: issue, wait, take. It executes the word, and the interface is at rest again. -/
theorem run_handshake {s : State} {cw : CommandWord} {more : List HostAction} (h : AtRest s)
    (hin : s.inputs = handshake cw ++ more) :
    ∃ t, executeWord cw { s with inputs := [] } = .next t ∧ AtRest (t.putHostSide [] more .taken) ∧
      ∀ n, Host.Core.run core (n + 3) s = Host.Core.run core n (t.putHostSide [] more .taken) := by
  obtain ⟨hrel, hcmd, hresp⟩ := h
  obtain ⟨t, r, ht, hword, hr⟩ := executeWord_sameAnswers cw { s with inputs := [] }
  have hsame := executeWord_sameInterface ht
  have hissue : step s = .next { s with commands := [cw], inputs := .wait :: .take :: more } := by
    simpa [hcmd] using step_issue (s := s) hin
  have hidle : State.putHostSide { s with inputs := [] } [] (.take :: more) s.lastResponse =
      { s with commands := [], inputs := .take :: more } := by
    simp [State.putHostSide, hcmd, hresp]
  have hwait : step { s with commands := [cw], inputs := .wait :: .take :: more } =
      .next (t.putHostSide [r] (.take :: more) s.lastResponse) :=
    calc step { s with commands := [cw], inputs := .wait :: .take :: more }
        = blockMove { s with commands := [cw], inputs := .take :: more } := step_wait rfl
      _ = executeWord cw { s with commands := [], inputs := .take :: more } :=
        blockMove_of_room (s := { s with commands := [cw], inputs := .take :: more }) rfl hrel (by simp [hresp])
      _ = .next (t.putHostSide [r] (.take :: more) s.lastResponse) := hidle ▸ hword [] (.take :: more) s.lastResponse
  have htake : step (t.putHostSide [r] (.take :: more) s.lastResponse) = .next (t.putHostSide [] more .taken) :=
    step_take rfl rfl hr
  refine ⟨t, ht, ⟨hsame.resetStatus.trans hrel, hsame.commands.trans hcmd, rfl⟩, fun n => ?_⟩
  rw [run_succ hissue, run_succ hwait, run_succ htake]

/-- The whole session, by induction on its words: each round starts where the one before it left the interface at
rest. -/
theorem run_session {s : State} (ws : List CommandWord) (h : AtRest s) (hin : s.inputs = ws.flatMap handshake) :
    ∃ t, executeAll ws { s with inputs := [] } = .next t ∧ SameInterface { s with inputs := [] } t ∧
      Host.Core.run core (3 * ws.length) s =
        .next (t.putHostSide [] [] (if ws = [] then s.lastResponse else .taken)) := by
  induction ws generalizing s with
  | nil =>
    refine ⟨_, rfl, .refl _, congrArg Host.Outcome.next ?_⟩
    exact State.ext_fields rfl rfl rfl rfl rfl h.noResponse hin rfl
  | cons cw ws ih =>
    obtain ⟨s₁, hs₁, hrest, hrun⟩ := run_handshake h hin
    obtain ⟨t', ht', -, hrun'⟩ := ih hrest rfl
    obtain ⟨t, answers, ht, hsame, hanswers⟩ := executeAll_sameAnswers ws s₁
    have ht' : t' = t.putHostSide answers [] .taken :=
      Host.Outcome.next.inj (ht'.symm.trans (hanswers [] [] .taken))
    refine ⟨t, (executeAll_cons hs₁).trans ht, (executeWord_sameInterface hs₁).trans hsame, ?_⟩
    rw [List.length_cons, Nat.mul_succ, hrun, hrun', ht', if_neg (List.cons_ne_nil cw ws)]
    simp [State.putHostSide]

/-- Settles O45: the session's words, and the interface they leave, where the run is over once a response was taken. -/
theorem hostSessionExecutesItsWords : Obligations.HostSessionExecutesItsWords := by
  intro s ws hrel hcmd hresp hin
  obtain ⟨t, ht, hsame, hrun⟩ := run_session ws ⟨hrel, hcmd, hresp⟩ hin
  have hcmd' : t.commands = [] := hsame.commands.trans hcmd
  have hin' : t.inputs = [] := hsame.inputs
  refine ⟨t, _, ht, hrun, State.ext_fields rfl rfl rfl rfl rfl rfl hin'.symm rfl, ?_⟩
  rw [runIsOver_iff]
  by_cases hws : ws = [] <;> simp [State.putHostSide, hcmd', hws]

end Sys2Proof.Machine
end

section
/-! The pseudo-instruction `hash` (30_encoding.md R69): the stream its UPDATE words carry, and the digest, which is the
source algorithm's (40_update.md R83, R84; 41_finalize.md R111). -/

namespace Sys2Proof.Machine

/-! The words of `absorb` carry its bytes. -/

theorem streamOf_cons {cw : CommandWord} {bytes : List Byte} (hd : decode cw = .ok (.update bytes))
    (rest : List CommandWord) : streamOf (cw :: rest) = (streamOf rest).map (bytes ++ ·) := by
  simp [streamOf, hd]

/-- The first word of a stream is an UPDATE. -/
theorem streamOf_cons_eq_some {cw : CommandWord} {rest : List CommandWord} {bytes : List Byte}
    (h : streamOf (cw :: rest) = some bytes) :
    ∃ first more, decode cw = .ok (.update first) ∧ streamOf rest = some more ∧ bytes = first ++ more := by
  rcases hd : decode cw with c | _ | first | _
  case ok.update =>
    rw [streamOf_cons hd] at h
    obtain ⟨more, hmore, hbytes⟩ := Option.map_eq_some_iff.1 h
    exact ⟨first, more, rfl, hmore, hbytes.symm⟩
  all_goals simp [streamOf, hd] at h

/-- Beats of at most eight bytes, encoded as UPDATE words, carry the bytes they were cut from. -/
theorem streamOf_beatsOf (fuel : Nat) (bs : List Byte) (hfuel : bs.length < fuel) :
    streamOf ((beatsOf fuel bs).map fun chunk => encode (.update chunk)) = some bs := by
  induction fuel generalizing bs with
  | zero => exact absurd hfuel (Nat.not_lt_zero _)
  | succ fuel ih =>
    by_cases hlast : bs.length ≤ 8
    · simp [beatsOf, Config.beatBytes, hlast, streamOf_cons (decode_encode_update hlast), streamOf]
    · have hfirst : (bs.take 8).length ≤ 8 := List.length_take_le 8 bs
      have hrest : (bs.drop 8).length < fuel := by rw [List.length_drop]; omega
      simp [beatsOf, Config.beatBytes, hlast, streamOf_cons (decode_encode_update hfirst), ih _ hrest]

theorem streamOf_absorbWords (bs : List Byte) : streamOf (absorbWords bs) = some bs :=
  streamOf_beatsOf _ bs (Nat.lt_succ_self _)

/-- One beat for no bytes, else one per eight bytes begun. -/
theorem length_beatsOf (fuel : Nat) (bs : List Byte) (hfuel : bs.length < fuel) :
    (beatsOf fuel bs).length = max 1 ((bs.length + 7) / 8) := by
  induction fuel generalizing bs with
  | zero => exact absurd hfuel (Nat.not_lt_zero _)
  | succ fuel ih =>
    by_cases hlast : bs.length ≤ 8
    · simp [beatsOf, Config.beatBytes, hlast]
      omega
    · have hrest : (bs.drop 8).length < fuel := by rw [List.length_drop]; omega
      simp [beatsOf, Config.beatBytes, hlast, ih _ hrest]
      omega

theorem length_absorbWords (bs : List Byte) : (absorbWords bs).length = max 1 ((bs.length + 7) / 8) :=
  (List.length_map _).trans (length_beatsOf _ bs (Nat.lt_succ_self _))

/-! Executing words that carry a stream absorbs the stream. -/

theorem executeAll_append {ws vs : List CommandWord} {s t : State} (h : executeAll ws s = .next t) :
    executeAll (ws ++ vs) s = executeAll vs t := by
  induction ws generalizing s with
  | nil => cases h; rfl
  | cons cw ws ih =>
    obtain ⟨s₁, hs₁⟩ := executeWord_total cw s
    rw [executeAll_cons hs₁] at h
    rw [List.cons_append, executeAll_cons hs₁, ih h]

theorem SameStorage.refl (s : State) : SameStorage s s := ⟨rfl, rfl⟩

theorem SameStorage.trans {s t u : State} (h : SameStorage s t) (h' : SameStorage t u) : SameStorage s u :=
  ⟨h.store.trans h'.store, h.len.trans h'.len⟩

theorem SameStorage.shift {s u : State} (h : SameStorage s u) : s.shift = u.shift := congrArg HashStore.shift h.store

/-- UPDATE words leave the storage and LEN that absorbing their bytes one after another leaves. -/
theorem executeAll_of_streamOf {ws : List CommandWord} {bytes : List Byte} (h : streamOf ws = some bytes) (s : State) :
    ∃ t, executeAll ws s = .next t ∧ SameStorage (s.absorbAll bytes) t := by
  induction ws generalizing bytes s with
  | nil =>
    cases h
    exact ⟨s, rfl, .refl s⟩
  | cons cw ws ih =>
    obtain ⟨first, more, hd, hmore, rfl⟩ := streamOf_cons_eq_some h
    have hword := executeWord_update hd s
    obtain ⟨t, ht, hsame⟩ := ih hmore (((s.absorbAll first).setPhase .active).respond okCode 0#160)
    refine ⟨t, (executeAll_cons hword).trans ht, ?_⟩
    have hfirst : SameStorage (s.absorbAll first) (((s.absorbAll first).setPhase .active).respond okCode 0#160) :=
      ⟨rfl, rfl⟩
    rw [State.absorbAll_append]
    exact (hfirst.absorbAll more).trans hsame

/-! Absorbing, lane by lane (40_update.md R83). -/

/-- A routed byte, lane by lane: its low part in lane `s / 8`, its high part, 0 at an aligned shift, in the next lane
circularly. -/
theorem lane_routed (b : Byte) {s k : Nat} (hs : s < 160) (hk : k < 20) :
    lane (routed b s) k =
      if k = s / 8 then b <<< (s % 8) else if k = (s / 8 + 1) % 20 then b >>> (8 - s % 8) else 0#8 := by
  apply BitVec.eq_of_getLsbD_eq
  intro i hi
  rw [getLsbD_lane _ _ _ hi, getLsbD_routed _ hs (by omega)]
  split_ifs with hlow hhigh
  · by_cases hbelow : i < s % 8
    · have hout : b.getLsbD ((8 * k + i + (160 - s)) % 160) = false := BitVec.getLsbD_of_ge _ _ (by omega)
      rw [hout, BitVec.getLsbD_shiftLeft]
      simp [hbelow]
    · have hpos : (8 * k + i + (160 - s)) % 160 = i - s % 8 := by omega
      rw [hpos, BitVec.getLsbD_shiftLeft]
      simp [hi, hbelow]
  · have hpos : (8 * k + i + (160 - s)) % 160 = 8 - s % 8 + i := by omega
    rw [hpos, BitVec.getLsbD_ushiftRight]
  · have hout : b.getLsbD ((8 * k + i + (160 - s)) % 160) = false := BitVec.getLsbD_of_ge _ _ (by omega)
    rw [hout, BitVec.getLsbD_zero]

/-- XORing a byte into the source's lane for `k` changes that lane alone. -/
theorem getElem_xorInto (lanes : Vector Byte 20) (k : Nat) (v : Byte) {j : Nat} (hj : j < 20) :
    (SourceHasher.xorInto lanes k v)[19 - j] = lanes[19 - j] ^^^ if j = k % 20 then v else 0#8 := by
  have hiff : 19 - k % 20 = 19 - j ↔ j = k % 20 := by omega
  by_cases h : j = k % 20
  · subst h
    simp [SourceHasher.xorInto]
  · simp [SourceHasher.xorInto, hiff, h]

/-- The source's step, lane by lane, is the routed byte's: its unbounded shift gives the lanes SHIFT gives (R85). -/
theorem getElem_absorb_lanes (h : SourceHasher) (b : Byte) {j : Nat} (hj : j < 20) :
    (h.absorb b).lanes[19 - j] = h.lanes[19 - j] ^^^ lane (routed b (h.shift % 160)) j := by
  have hlane : h.shift % 160 / 8 = h.shift / 8 % 20 := by omega
  have hbit : h.shift % 160 % 8 = h.shift % 8 := by omega
  have hnext : (h.shift / 8 % 20 + 1) % 20 = (h.shift / 8 + 1) % 20 := by omega
  rw [lane_routed b (Nat.mod_lt _ (by decide)) hj, hlane, hbit, hnext]
  by_cases haligned : h.shift % 8 = 0
  · have hhigh : b >>> 8 = 0#8 := BitVec.ushiftRight_eq_zero (Nat.le_refl 8)
    simp [SourceHasher.absorb, haligned, getElem_xorInto _ _ _ hj, hhigh]
  · by_cases hlow : j = h.shift / 8 % 20
    · have hhigh : j ≠ (h.shift / 8 + 1) % 20 := by omega
      simp only [SourceHasher.absorb, haligned, getElem_xorInto _ _ _ hj, if_pos hlow, if_neg hhigh, ↓reduceIte,
        BitVec.xor_zero]
    · simp only [SourceHasher.absorb, haligned, getElem_xorInto _ _ _ hj, if_neg hlow, ↓reduceIte, BitVec.xor_zero]

/-! The digest, lane by lane (41_finalize.md R111, R112). -/

/-- LEN, folded in, takes lanes 12 to 19 in little-endian order. -/
theorem lane_lenFold (len : BitVec 64) {k : Nat} (hk : k < 20) :
    lane ((len.zeroExtend 160) <<< 96) k = if k < 12 then 0#8 else len.extractLsb' (8 * (k - 12)) 8 := by
  apply BitVec.eq_of_getLsbD_eq
  intro i hi
  have hbit : 8 * k + i < 160 := by omega
  rw [getLsbD_lane _ _ _ hi, BitVec.getLsbD_shiftLeft]
  split_ifs with hlow
  · have hbelow : 8 * k + i < 96 := by omega
    simp [hbelow]
  · have habove : ¬ 8 * k + i < 96 := by omega
    have hpos : 8 * k + i - 96 = 8 * (k - 12) + i := by omega
    have hlen : 8 * (k - 12) + i < 160 := by omega
    simp only [BitVec.zeroExtend, BitVec.getLsbD_setWidth, BitVec.getLsbD_extractLsb', hbit, habove, hpos, hlen, hi,
      decide_true, decide_false, Bool.not_false, Bool.true_and]

theorem lane_digestOf (acc : Word160) (len : BitVec 64) {k : Nat} (hk : k < 20) :
    lane (digestOf acc len) k = if k < 12 then lane acc k else lane acc k ^^^ len.extractLsb' (8 * (k - 12)) 8 := by
  have hfold := lane_lenFold len hk
  by_cases hlow : k < 12 <;> simp_all [digestOf, Config.lenFoldOffset, lane_xor]

/-- Byte `j` of LEN is byte `j` of the unbounded length. -/
theorem extractLsb'_ofNat_length (n : Nat) {j : Nat} (hj : j < 8) :
    (BitVec.ofNat 64 n).extractLsb' (8 * j) 8 = byteOfNat n j := by
  apply BitVec.eq_of_getLsbD_eq
  intro i hi
  have hbit : 8 * j + i < 64 := by omega
  simp only [byteOfNat, BitVec.getLsbD_extractLsb', BitVec.getLsbD_ofNat, Nat.testBit_div_two_pow, hi, hbit,
    decide_true, Bool.true_and, Nat.add_comm i]

/-! The source's hasher and the block, side by side. -/

/-- The source's hasher `h` holds what the state holds: its lanes in reverse order, and SHIFT and LEN without their
bounds (40_update.md R84, R85; 10_state.md R22). -/
structure Represents (h : SourceHasher) (s : State) : Prop where
  lanes : ∀ k (_ : k < 20), h.lanes[19 - k] = lane s.acc k
  shift : h.shift % 160 = s.shift.val
  length : BitVec.ofNat 64 h.length = s.len

theorem represents_new {s : State} (hacc : s.acc = 0#160) (hshift : s.shift = 0) (hlen : s.len = 0#64) :
    Represents .new s :=
  ⟨fun k hk => by simp [SourceHasher.new, hacc, lane], by simp [SourceHasher.new, hshift],
    by simp [SourceHasher.new, hlen]⟩

section Represents
variable {h : SourceHasher} {s : State} (hr : Represents h s)
include hr

theorem Represents.of_sameStorage {t : State} (hst : SameStorage s t) : Represents h t :=
  ⟨hst.acc ▸ hr.lanes, hst.shift ▸ hr.shift, hst.len ▸ hr.length⟩

theorem Represents.absorb (b : Byte) : Represents (h.absorb b) (s.absorb b) where
  lanes k hk := by rw [getElem_absorb_lanes h b hk, hr.lanes k hk, hr.shift, State.absorb_acc, lane_xor]
  shift := by
    rw [State.absorb_shift, nextShift_val, ← hr.shift]
    simp [SourceHasher.absorb, Config.shiftQuantum]
  length := by simp [SourceHasher.absorb, BitVec.ofNat_add, hr.length]

/-- Equal lanes and equal bytes of LEN give equal digests. -/
theorem Represents.digest : digestBytes (digestOf s.acc s.len) = h.finalize := by
  refine List.map_congr_left fun k hk => ?_
  have hk : k < 20 := List.mem_range.1 hk
  have hlane : h.lanes.toList.reverse.getD k 0#8 = lane s.acc k := by
    rw [← hr.lanes k hk]
    simp [hk]
  have hlength : ¬ k < 12 → s.len.extractLsb' (8 * (k - 12)) 8 = byteOfNat h.length (k - 12) := fun hhigh => by
    rw [← hr.length, extractLsb'_ofNat_length _ (by omega)]
  rw [hlane, lane_digestOf _ _ hk, Config.lenFoldOffset]
  split_ifs with hlow
  · rfl
  · rw [hlength hlow]

end Represents

theorem Represents.update {h : SourceHasher} {s : State} (hr : Represents h s) (bytes : List Byte) :
    Represents (h.update bytes) (s.absorbAll bytes) := by
  induction bytes generalizing h s with
  | nil => exact hr
  | cons b bytes ih => exact ih (hr.absorb b)

/-- Settles O47: INIT starts a fresh message, the UPDATEs absorb the bytes, and FINAL answers the digest of what the
source's hasher holds by then. -/
theorem hashLineComputesTheDigest : Obligations.HashLineComputesTheDigest := by
  intro s bytes
  have hinit := executeWord_init (decodeUndoesEncode .init rfl) s
  obtain ⟨t, ht, hst⟩ :=
    executeAll_of_streamOf (streamOf_absorbWords bytes) (s.clearHash.respond okCode 0#160)
  have hfinal := executeWord_final (decodeUndoesEncode .final rfl) t
  have hnew : Represents .new (s.clearHash.respond okCode 0#160) := represents_new (by simp) (by simp) rfl
  have hdigest : digestBytes (digestOf t.acc t.len) = SourceHasher.digest bytes :=
    ((hnew.update bytes).of_sameStorage hst).digest
  have hrun : executeAll (encode .init :: absorbWords bytes ++ [encode .final]) s = .next _ :=
    (executeAll_cons hinit).trans ((executeAll_append ht).trans (executeAll_cons hfinal))
  refine ⟨_, _, responseWord okCode .finalized (digestOf t.acc t.len), rfl, ?_, hrun, by simp, ?_⟩
  · simp [length_absorbWords]
    omega
  · rw [rspDigest_responseWord, hdigest]

end Sys2Proof.Machine
end

section
/-! UPDATE's loop in closed form (40_update.md R81, R86, R88): ACC, SHIFT and LEN after any list of bytes, FOLD as the
same reduction (R94), and the statements about streams of UPDATE words that follow (R86, R87). -/

namespace Sys2Proof.Machine

/-! The reduction. -/

@[simp] theorem xorReduce_nil (s j : Nat) : xorReduce s j [] = 0#160 := rfl

theorem xorReduce_cons (s j : Nat) (b : Byte) (bs : List Byte) :
    xorReduce s j (b :: bs) = routed b ((s + 11 * j) % 160) ^^^ xorReduce s (j + 1) bs := rfl

/-- The reduction rests on the shift of its first byte alone. -/
theorem xorReduce_congr {s j s' j' : Nat} (h : (s + 11 * j) % 160 = (s' + 11 * j') % 160) (bs : List Byte) :
    xorReduce s j bs = xorReduce s' j' bs := by
  induction bs generalizing j j' with
  | nil => rfl
  | cons b bs ih =>
    have hnext : (s + 11 * (j + 1)) % 160 = (s' + 11 * (j' + 1)) % 160 := by omega
    rw [xorReduce_cons, xorReduce_cons, h, ih hnext]

/-- The reduction at SHIFT, its first byte taken off and the rest reduced at the next SHIFT. -/
theorem xorReduce_cons_nextShift (s : Fin 160) (b : Byte) (bs : List Byte) :
    xorReduce s.val 0 (b :: bs) = routed b s.val ^^^ xorReduce (nextShift s).val 0 bs := by
  have hfirst : (s.val + 11 * 0) % 160 = s.val := Nat.mod_eq_of_lt s.isLt
  have hrest : (s.val + 11 * (0 + 1)) % 160 = ((nextShift s).val + 11 * 0) % 160 := by rw [nextShift_val]; omega
  rw [xorReduce_cons, hfirst, xorReduce_congr hrest]

theorem xorReduce_replicate_zero (n s j : Nat) : xorReduce s j (List.replicate n 0#8) = 0#160 := by
  induction n generalizing j with
  | zero => rfl
  | succ n ih => simp [List.replicate_succ, xorReduce_cons, ih, routed_zero (Nat.mod_lt _ (by decide))]

/-- The reduction is linear over XOR. -/
theorem xorReduce_zipWith_xor (s j : Nat) (xs ys : List Byte) (hlen : xs.length = ys.length) :
    xorReduce s j (List.zipWith (fun a b => a ^^^ b) xs ys) = xorReduce s j xs ^^^ xorReduce s j ys := by
  induction xs generalizing j ys with
  | nil => simp [List.length_eq_zero_iff.1 hlen.symm]
  | cons x xs ih =>
    cases ys with
    | nil => cases hlen
    | cons y ys =>
      have hs : (s + 11 * j) % 160 < 160 := Nat.mod_lt _ (by decide)
      simp only [List.zipWith_cons_cons, xorReduce_cons, routed_xor x y hs, ih (j + 1) ys (Nat.succ.inj hlen)]
      ac_rfl

/-! FOLD (R94). -/

theorem foldFrom_eq_xorReduce (xs : List Byte) (s : Fin 160) (a : Word160) :
    foldFrom xs s a = a ^^^ xorReduce s.val 0 xs := by
  induction xs generalizing s a with
  | nil => simp [foldFrom]
  | cons x xs ih => rw [foldFrom, ih, xorReduce_cons_nextShift, BitVec.xor_assoc]

theorem foldBlock_eq_xorReduce (x : Vector Byte 160) : foldBlock x = xorReduce 0 0 x.toList :=
  (foldFrom_eq_xorReduce x.toList 0 0#160).trans BitVec.zero_xor

/-- Settles O19: FOLD is the reduction from shift 0, and the reduction is linear. -/
theorem foldIsLinear : Obligations.FoldIsLinear := by
  refine ⟨fun x y => ?_, foldBlock_eq_xorReduce⟩
  simp only [foldBlock_eq_xorReduce, xorBlock, Vector.toList_zipWith]
  exact xorReduce_zipWith_xor 0 0 _ _ (by simp)

/-! UPDATE's loop (R81). -/

theorem State.absorbAll_acc (s : State) (bs : List Byte) :
    (s.absorbAll bs).acc = s.acc ^^^ xorReduce s.shift.val 0 bs := by
  induction bs generalizing s with
  | nil => simp
  | cons b bs ih =>
    rw [State.absorbAll_cons, ih, State.absorb_acc, State.absorb_shift, xorReduce_cons_nextShift, BitVec.xor_assoc]

theorem State.absorbAll_shift (s : State) (bs : List Byte) :
    (s.absorbAll bs).shift.val = (s.shift.val + 11 * bs.length) % 160 := by
  induction bs generalizing s with
  | nil => exact (Nat.mod_eq_of_lt s.shift.isLt).symm
  | cons b bs ih =>
    rw [State.absorbAll_cons, ih, State.absorb_shift, nextShift_val, List.length_cons]
    omega

theorem State.resetOf_acc (v : Variant) : (State.resetOf v).acc = 0#160 := HashStore.cleared_acc v

theorem State.resetOf_shift (v : Variant) : (State.resetOf v).shift = 0 := HashStore.cleared_shift v

/-- Settles O13: `exec` is the loop, then PHASE and the response, which touch nothing the loop wrote. -/
theorem updateCompletes : Obligations.UpdateCompletes := fun bytes s =>
  ⟨_, rfl, s.absorbAll_acc bytes, s.absorbAll_shift bytes, s.absorbAll_len bytes, rfl,
    congrArg (· ++ _) (s.absorbAll_responses bytes),
    ⟨s.absorbAll_variant bytes, s.absorbAll_resetStatus bytes, s.absorbAll_commands bytes, s.absorbAll_inputs bytes,
      s.absorbAll_lastResponse bytes⟩⟩

/-- Settles O14: with no byte the loop does nothing. -/
theorem emptyUpdateSetsPhaseOnly : Obligations.EmptyUpdateSetsPhaseOnly := fun _ => rfl

/-! Streams of UPDATE words (R86, R87). -/

/-- The hash state after any words that carry the stream, from any state. -/
theorem executeAll_closedForm {ws : List CommandWord} {bytes : List Byte} (h : streamOf ws = some bytes) (s : State) :
    ∃ t, executeAll ws s = .next t ∧ t.acc = s.acc ^^^ xorReduce s.shift.val 0 bytes ∧
      t.len = s.len + BitVec.ofNat 64 bytes.length ∧ t.shift.val = (s.shift.val + 11 * bytes.length) % 160 := by
  obtain ⟨t, ht, hsame⟩ := executeAll_of_streamOf h s
  exact ⟨t, ht, hsame.acc ▸ s.absorbAll_acc bytes, hsame.len ▸ s.absorbAll_len bytes,
    hsame.shift ▸ s.absorbAll_shift bytes⟩

/-- The same where the hash state is cleared: byte `i` enters at the shift of its absolute position `i`. -/
theorem executeAll_closedForm_of_cleared {ws : List CommandWord} {bytes : List Byte} (h : streamOf ws = some bytes)
    {s : State} (hacc : s.acc = 0#160) (hlen : s.len = 0#64) (hshift : s.shift = 0) :
    ∃ t, executeAll ws s = .next t ∧ t.acc = xorReduce 0 0 bytes ∧ t.len.toNat = bytes.length % 2 ^ 64 ∧
      t.shift.val = (11 * bytes.length) % 160 := by
  obtain ⟨t, ht, htacc, htlen, htshift⟩ := executeAll_closedForm h s
  exact ⟨t, ht, by simpa [hacc, hshift] using htacc, by simp [htlen, hlen], by simpa [hshift] using htshift⟩

/-- Settles O15: reset and INIT both leave a cleared hash state. -/
theorem closedFormOfTheStream : Obligations.ClosedFormOfTheStream := by
  refine ⟨fun v ws bytes h => ?_, fun s cw ws bytes hinit h => ?_⟩
  · exact executeAll_closedForm_of_cleared h (State.resetOf_acc v) rfl (State.resetOf_shift v)
  · rw [executeAll_cons (executeWord_init hinit s)]
    exact executeAll_closedForm_of_cleared h s.clearHash_acc rfl s.clearHash_shift

/-- Settles O16: the closed form names the stream alone, not its split; two bytes in two orders give two values of it. -/
theorem chunkingDoesNotMatter : Obligations.ChunkingDoesNotMatter := by
  refine ⟨fun s ws vs bytes hws hvs => ?_, fun v => ?_⟩
  · obtain ⟨t, ht, htacc, htlen, htshift⟩ := executeAll_closedForm hws s
    obtain ⟨u, hu, huacc, hulen, hushift⟩ := executeAll_closedForm hvs s
    have hsame : SameHash t u :=
      ⟨htacc.trans huacc.symm, Fin.ext (htshift.trans hushift.symm), htlen.trans hulen.symm⟩
    refine ⟨t, u, ht, hu, hsame, htacc, htlen, htshift, _, _, rfl, rfl, ?_⟩
    simp [hsame.acc, hsame.len]
  · have horder : xorReduce 0 0 [0xB5#8, 0xB4#8] ≠ xorReduce 0 0 [0xB4#8, 0xB5#8] := by decide
    simp only [State.absorbAll_acc, State.resetOf_acc, State.resetOf_shift, BitVec.zero_xor]
    exact horder

/-- Settles O26: the source's hasher and the block hold the same at the start and after every byte. -/
theorem digestIsTheSourceAlgorithms : Obligations.DigestIsTheSourceAlgorithms := by
  intro v ws bytes h
  obtain ⟨t, ht, hsame⟩ := executeAll_of_streamOf h (State.resetOf v)
  have hnew : Represents .new (State.resetOf v) :=
    represents_new (State.resetOf_acc v) (State.resetOf_shift v) rfl
  have hdigest : digestBytes (digestOf t.acc t.len) = SourceHasher.digest bytes :=
    ((hnew.update bytes).of_sameStorage hsame).digest
  exact ⟨t, _, responseWord okCode .finalized (digestOf t.acc t.len), ht, rfl, rfl,
    by rw [rspDigest_responseWord, hdigest]⟩

end Sys2Proof.Machine
end

section
/-! The two variants side by side (40_update.md R95): agreement at reset, kept by every command sequence. -/

namespace Sys2Proof.Machine

theorem agree_resetOf (v v' : Variant) : Agree (State.resetOf v) (State.resetOf v') where
  acc := (State.resetOf_acc v).trans (State.resetOf_acc v').symm
  shift := (State.resetOf_shift v).trans (State.resetOf_shift v').symm
  len := rfl
  phase := rfl
  resetStatus := rfl
  commands := rfl
  responses := rfl
  inputs := rfl
  lastResponse := rfl

/-- The same command words, on two agreeing states: they agree after, each still of its own variant. -/
theorem Agree.executeAll_agrees {s u : State} (h : Agree s u) (ws : List CommandWord) :
    ∃ t w, executeAll ws s = .next t ∧ executeAll ws u = .next w ∧ Agree t w ∧
      t.variant = s.variant ∧ w.variant = u.variant := by
  induction ws generalizing s u with
  | nil => exact ⟨s, u, rfl, rfl, h, rfl, rfl⟩
  | cons cw ws ih =>
    obtain ⟨s₁, hs₁⟩ := executeWord_total cw s
    obtain ⟨u₁, hu₁, h₁⟩ := agreeingOutcomes_next_iff.1 (hs₁ ▸ h.executeWord_agrees cw)
    obtain ⟨t, w, ht, hw, htw, hvt, hvw⟩ := ih h₁
    exact ⟨t, w, (executeAll_cons hs₁).trans ht, (executeAll_cons hu₁).trans hw, htw,
      hvt.trans (executeWord_variant hs₁), hvw.trans (executeWord_variant hu₁)⟩

theorem State.store_of_variant_perByte {s : State} (h : s.variant = .perByte) :
    ∃ acc shift, s.store = .perByte acc shift := by
  cases hs : s.store with
  | perByte acc shift => exact ⟨acc, shift, rfl⟩
  | block => simp [State.variant, hs, HashStore.variant] at h

theorem State.store_of_variant_block {s : State} (h : s.variant = .block) :
    ∃ buf accb cur, s.store = .block buf accb cur := by
  cases hs : s.store with
  | perByte => simp [State.variant, hs, HashStore.variant] at h
  | block buf accb cur => exact ⟨buf, accb, cur, rfl⟩

/-- Settles O17: FOLD(ACCB XOR BUF) and (11 · CUR) mod 160 are ACC and SHIFT as BLOCK storage reads, and the two variants
agree on both. -/
theorem blockVariantMatchesPerByte : Obligations.BlockVariantMatchesPerByte := by
  intro ws
  obtain ⟨t, u, ht, hu, hagree, hvt, hvu⟩ := (agree_resetOf .perByte .block).executeAll_agrees ws
  obtain ⟨acc, shift, hst⟩ := State.store_of_variant_perByte (hvt.trans (State.resetOf_variant _))
  obtain ⟨buf, accb, cur, hsu⟩ := State.store_of_variant_block (hvu.trans (State.resetOf_variant _))
  have hacc : (HashStore.block buf accb cur).acc = (HashStore.perByte acc shift).acc := by
    rw [← hsu, ← hst]
    exact hagree.acc.symm
  have hshift : (HashStore.block buf accb cur).shift = (HashStore.perByte acc shift).shift := by
    rw [← hsu, ← hst]
    exact hagree.shift.symm
  exact ⟨t, u, acc, shift, buf, accb, cur, ht, hu, hst, hsu, hacc, congrArg Fin.val hshift, hagree.len.symm,
    hagree.phase.symm, hagree.responses.symm⟩

end Sys2Proof.Machine
end

section
/-! What does not decide a command word's meaning (40_update.md R90; 30_encoding.md R64): DATA at or above CNT, and DATA
of INIT and FINAL. -/

namespace Sys2Proof.Machine

/-- The 16 header bits are OPC, CNT and RSV (30_encoding.md R60). -/
theorem header_congr {cw cw' : CommandWord} (h : cw.toNat % 65536 = cw'.toNat % 65536) :
    cwOpc cw = cwOpc cw' ∧ cwCnt cw = cwCnt cw' ∧ cwRsv cw = cwRsv cw' := by
  have hopc : cw'.toNat % 16 = (cwOpc cw').toNat := (cwOpc_eq_iff cw' _).1 rfl
  have hcnt : cw'.toNat / 16 % 16 = (cwCnt cw').toNat := (cwCnt_eq_iff cw' _).1 rfl
  have hrsv : cw'.toNat / 256 % 256 = (cwRsv cw').toNat := (cwRsv_eq_iff cw' _).1 rfl
  rw [cwOpc_eq_iff, cwCnt_eq_iff, cwRsv_eq_iff]
  omega

/-- A command word's header and the bytes of its beat decide what it decodes to. -/
theorem decode_congr {cw cw' : CommandWord} (hopc : cwOpc cw = cwOpc cw') (hcnt : cwCnt cw = cwCnt cw')
    (hrsv : cwRsv cw = cwRsv cw')
    (hbeat : cwOpc cw = 0x2#4 → beat (cwData cw) (cwCnt cw).toNat = beat (cwData cw') (cwCnt cw).toNat) :
    decode cw = decode cw' := by
  unfold decode
  rw [← hopc, ← hcnt, ← hrsv]
  by_cases hupdate : cwOpc cw = 0x2#4
  · rw [hbeat hupdate]
  · simp only [if_neg hupdate]

/-- Settles O4: such words decode alike, and `executeWord` reads a word through the decoder alone. -/
theorem ignoredBytesHaveNoEffect : Obligations.IgnoredBytesHaveNoEffect := by
  intro cw cw' s hheader hdata
  obtain ⟨hopc, hcnt, hrsv⟩ := header_congr hheader
  have hdecode : decode cw = decode cw' := decode_congr hopc hcnt hrsv fun hupdate =>
    List.map_congr_left fun j hj => hdata hupdate j (List.mem_range.1 hj)
  simp only [executeWord, hdecode]

end Sys2Proof.Machine
end

section
/-! ABSORB's write to ACC (40_update.md R82) in its other forms: the library's rotation, the lane split (R83), and the
source's unbounded shift (R85). -/

namespace Sys2Proof.Machine

/-- The library's rotation reduces its amount modulo 160. -/
theorem rotateLeft_eq_rotl160 (v : Word160) (s : Nat) : v.rotateLeft s = rotl160 v (s % 160) := rfl

/-- The bits a routed byte does not reach are 0 (R82). -/
theorem getLsbD_routed_of_ne (b : Byte) {s p : Nat} (hs : s < 160) (hp : p < 160)
    (h : ∀ t, t < 8 → p ≠ (s + t) % 160) : (routed b s).getLsbD p = false := by
  rw [getLsbD_routed b hs hp]
  refine BitVec.getLsbD_of_ge _ _ (Nat.le_of_not_lt fun hbit => h _ hbit ?_)
  omega

/-- Settles O6: bit `t` of the byte stands at bit `(s + t) mod 160` of the routed byte, whose other bits are 0. -/
theorem absorbRoutesTheByte : Obligations.AbsorbRoutesTheByte := by
  intro s b
  have hs : s.shift.val < 160 := s.shift.isLt
  refine ⟨?_, fun t ht => ?_, fun p hp hout => ?_, by simp, by simp, rfl, rfl, s.absorb_variant b, rfl, rfl, rfl, rfl⟩
  · rw [State.absorb_acc, rotateLeft_eq_rotl160, Nat.mod_eq_of_lt hs, routed]
  · have hbit : ((s.shift.val + t) % 160 + (160 - s.shift.val)) % 160 = t := by omega
    rw [State.absorb_acc, BitVec.getLsbD_xor, getLsbD_routed b hs (Nat.mod_lt _ (by decide)), hbit]
  · rw [State.absorb_acc, BitVec.getLsbD_xor, getLsbD_routed_of_ne b hs hp hout, Bool.xor_false]

/-! The lane split (R83). -/

/-- A 160-bit value is its 20 lanes. -/
theorem eq_of_lane_eq {v w : Word160} (h : ∀ k, k < 20 → lane v k = lane w k) : v = w := by
  apply BitVec.eq_of_getLsbD_eq
  intro p hp
  have hbit : 8 * (p / 8) + p % 8 = p := Nat.div_add_mod p 8
  have hlane := congrArg (BitVec.getLsbD · (p % 8)) (h (p / 8) (by omega))
  simpa only [getLsbD_lane _ _ _ (Nat.mod_lt p (by decide : 8 > 0)), hbit] using hlane

theorem lane_xorLane (acc : Word160) (v : Byte) {j k : Nat} (hj : j < 20) :
    lane (xorLane acc k v) j = lane acc j ^^^ if j = k then v else 0#8 := by
  rw [xorLane, lane_xor]
  congr 1
  apply BitVec.eq_of_getLsbD_eq
  intro i hi
  have hbit : 8 * j + i < 160 := by omega
  rw [getLsbD_lane _ _ _ hi, BitVec.getLsbD_shiftLeft, BitVec.zeroExtend, BitVec.getLsbD_setWidth]
  split_ifs with hjk
  · have hpos : 8 * j + i - 8 * j = i := by omega
    have hi' : i < 160 := by omega
    simp [← hjk, hbit, hpos, hi']
  · by_cases hbelow : 8 * j + i < 8 * k
    · simp [hbelow]
    · have hout : v.getLsbD (8 * j + i - 8 * k) = false := BitVec.getLsbD_of_ge _ _ (by omega)
      rw [hout, Bool.and_false, Bool.and_false, BitVec.getLsbD_zero]

/-- The two lanes the split writes are the two the routed byte reaches. -/
theorem laneSplit_eq_xor_routed (acc : Word160) {s : Nat} (hs : s < 160) (b : Byte) :
    laneSplit acc s b = acc ^^^ routed b s := by
  refine eq_of_lane_eq fun k hk => ?_
  have hlow : s / 8 % 20 = s / 8 := Nat.mod_eq_of_lt (by omega)
  rw [lane_xor, lane_routed b hs hk, laneSplit, hlow]
  by_cases haligned : s % 8 = 0
  · have hhigh : b >>> 8 = 0#8 := BitVec.ushiftRight_eq_zero (Nat.le_refl 8)
    simp [haligned, lane_xorLane _ _ hk, hhigh]
  · rw [if_neg haligned, lane_xorLane _ _ hk, lane_xorLane _ _ hk, BitVec.xor_assoc]
    congr 1
    have hnext : s / 8 ≠ (s / 8 + 1) % 20 := by omega
    by_cases hklow : k = s / 8
    · simp [hklow, hnext]
    · simp [hklow]

/-- A lane that is neither of the two is left alone. -/
theorem lane_routed_of_ne (b : Byte) {s k : Nat} (hs : s < 160) (hk : k < 20) (hlow : k ≠ s / 8)
    (hhigh : s % 8 = 0 ∨ k ≠ (s / 8 + 1) % 20) : lane (routed b s) k = 0#8 := by
  rw [lane_routed b hs hk, if_neg hlow]
  rcases hhigh with haligned | hhigh
  · have hempty : b >>> 8 = 0#8 := BitVec.ushiftRight_eq_zero (Nat.le_refl 8)
    simp [haligned, hempty]
  · rw [if_neg hhigh]

/-- Settles O7, lane by lane. -/
theorem laneSplitAgreesWithRotation : Obligations.LaneSplitAgreesWithRotation := by
  intro acc s b hs
  have hlow : s / 8 < 20 := by omega
  have hhigh : (s / 8 + 1) % 20 < 20 := Nat.mod_lt _ (by decide)
  have hnext : (s / 8 + 1) % 20 ≠ s / 8 := by omega
  refine ⟨laneSplit_eq_xor_routed acc hs b, ?_, fun _ => ?_, fun k hk hklow hkhigh => ?_⟩
  · rw [lane_xor, lane_routed b hs hlow, if_pos rfl]
  · rw [lane_xor, lane_routed b hs hhigh, if_neg hnext, if_pos rfl]
  · rw [lane_xor, lane_routed_of_ne b hs hk hklow hkhigh, BitVec.xor_zero]

/-! The unbounded shift (R85). -/

/-- The lane split reads its shift modulo 160. -/
theorem laneSplit_mod_160 (acc : Word160) (s : Nat) (b : Byte) : laneSplit acc s b = laneSplit acc (s % 160) b := by
  have hlow : s % 160 / 8 % 20 = s / 8 % 20 := by omega
  have hhigh : (s % 160 / 8 + 1) % 20 = (s / 8 + 1) % 20 := by omega
  have hbit : s % 160 % 8 = s % 8 := by omega
  simp only [laneSplit, hlow, hhigh, hbit]

/-- Settles O8: lane number, bit number and rotation repeat every 160, so the lane split can be reduced first. -/
theorem unboundedShiftAgrees : Obligations.UnboundedShiftAgrees := by
  intro s v
  refine ⟨by omega, by omega, rotateLeft_eq_rotl160 v s, fun acc b => ?_⟩
  calc laneSplit acc s b = laneSplit acc (s % 160) b := laneSplit_mod_160 acc s b
    _ = acc ^^^ routed b (s % 160) := laneSplit_eq_xor_routed acc (Nat.mod_lt s (by decide)) b

end Sys2Proof.Machine
end

section
/-! How SHIFT runs through the positions of a stream (40_update.md R91, R92, R96), and the lanes a byte touches there. -/

namespace Sys2Proof.Machine

/-- Both parts of a byte of ones are nonzero where the byte straddles two lanes. -/
theorem ones_parts_ne_zero (r : Nat) (hr : r < 8) : 0xFF#8 <<< r ≠ 0#8 ∧ (0xFF#8 >>> (8 - r) = 0#8 ↔ r = 0) := by
  revert r
  decide

/-- The lanes a byte absorbed at SHIFT `s` can touch: lane `s / 8`, and at an unaligned shift the next one (R83). -/
theorem lane_footprint_ne_zero_iff {s k : Nat} (hs : s < 160) (hk : k < 20) :
    lane (footprint s) k ≠ 0#8 ↔ k = s / 8 ∨ (s % 8 ≠ 0 ∧ k = (s / 8 + 1) % 20) := by
  obtain ⟨hlow, hhigh⟩ := ones_parts_ne_zero (s % 8) (Nat.mod_lt s (by decide))
  rw [footprint, lane_routed _ hs hk]
  split_ifs with hklow hkhigh
  · simp [hklow, hlow]
  · have hnext : (s / 8 + 1) % 20 ≠ s / 8 := by omega
    simp [hkhigh, hhigh, hnext]
  · simp [hklow, hkhigh]

theorem lane_footprint_eq_zero_iff {s k : Nat} (hs : s < 160) (hk : k < 20) :
    lane (footprint s) k = 0#8 ↔ k ≠ s / 8 ∧ (s % 8 = 0 ∨ k ≠ (s / 8 + 1) % 20) := by
  rw [← not_iff_not, ← ne_eq, lane_footprint_ne_zero_iff hs hk]
  omega

/-- Settles O9, first its three clauses about SHIFT, then those about a byte's lanes: 131 is the inverse of 11 modulo
160, so the distance of two shifts gives the count of bytes between them, modulo 160. -/
theorem shiftHasPeriod160 : Obligations.ShiftHasPeriod160 := by
  refine ⟨fun s v => ?_, fun s bytes hlen => ?_, fun s bytes hpos hlen heq => ?_, fun i => by omega, fun i hi => ?_,
    fun i hi => ?_⟩
  · have hs : s.shift.val < 160 := s.shift.isLt
    have hv : v.val < 160 := v.isLt
    refine ⟨131 * (v.val + (160 - s.shift.val)) % 160, Nat.mod_lt _ (by decide), fun bytes hlen => ?_,
      fun bytes hlen heq => ?_⟩
    · apply Fin.ext
      rw [State.absorbAll_shift, hlen]
      omega
    · have heq : (s.shift.val + 11 * bytes.length) % 160 = v.val := heq ▸ (s.absorbAll_shift bytes).symm
      omega
  · apply Fin.ext
    rw [State.absorbAll_shift, hlen]
    have hs : s.shift.val < 160 := s.shift.isLt
    omega
  · have heq : (s.shift.val + 11 * bytes.length) % 160 = s.shift.val := heq ▸ (s.absorbAll_shift bytes).symm
    omega
  all_goals have hs : 11 * i % 160 < 160 := Nat.mod_lt _ (by decide)
  · exact ⟨11 * i % 160 / 8, by omega, (lane_footprint_ne_zero_iff hs (by omega)).2 (.inl rfl), fun k hk hkq =>
      (lane_footprint_eq_zero_iff hs hk).2 ⟨hkq, .inl (by omega)⟩⟩
  · exact ⟨11 * i % 160 / 8, by omega, (lane_footprint_ne_zero_iff hs (by omega)).2 (.inl rfl),
      (lane_footprint_ne_zero_iff hs (Nat.mod_lt _ (by decide))).2 (.inr ⟨by omega, rfl⟩), fun k hk hklow hkhigh =>
      (lane_footprint_eq_zero_iff hs hk).2 ⟨hklow, .inr hkhigh⟩⟩

/-- Settles O11: before the wrap SHIFT would be 85, and goes on to 96; after it LEN is 0. -/
theorem lengthWrapsAndShiftGoesOn : Obligations.LengthWrapsAndShiftGoesOn := by
  intro s b hlen
  have hwrap : (s.absorb b).len = 0#64 := by rw [State.absorb_len, hlen]; rfl
  have hshift : (s.absorb b).shift.val = (s.shift.val + 11) % 160 := by rw [State.absorb_shift, nextShift_val]
  refine ⟨hwrap, hshift, fun hbefore => ?_⟩
  have hbefore : s.shift.val = 85 := by rw [hbefore, hlen]; rfl
  rw [hshift, hwrap, hbefore]
  decide

/-- ACC after zero bytes and then one more byte: that byte at the shift of its position (R86). -/
theorem absorbAll_acc_after_zeros (v : Variant) (n : Nat) (b : Byte) :
    ((State.resetOf v).absorbAll (List.replicate n 0x00#8 ++ [b])).acc = routed b (11 * n % 160) := by
  rw [State.absorbAll_append, State.absorbAll_cons, State.absorbAll_nil, State.absorb_acc, State.absorbAll_acc,
    State.absorbAll_shift, xorReduce_replicate_zero, State.resetOf_acc, State.resetOf_shift, List.length_replicate]
  simp

/-- Shift 153 is the first unaligned one of lane 19. -/
theorem lanes_19_and_0_iff {s : Nat} (hs : s < 160) :
    153 ≤ s ↔ lane (footprint s) 19 ≠ 0#8 ∧ lane (footprint s) 0 ≠ 0#8 := by
  rw [lane_footprint_ne_zero_iff hs (by decide), lane_footprint_ne_zero_iff hs (by decide)]
  omega

/-- The positions of the first period whose byte wraps: 131 is the inverse of 11 modulo 160. -/
theorem shift_ge_153_iff {i : Nat} (hi : i < 160) :
    153 ≤ 11 * i % 160 ↔ i ∈ [14, 29, 43, 58, 87, 116, 145] := by
  constructor
  · intro hwrap
    have hs : 11 * i % 160 < 160 := Nat.mod_lt _ (by decide)
    have hinverse : i = 131 * (11 * i % 160) % 160 := by omega
    generalize 11 * i % 160 = s at hwrap hs hinverse
    subst hinverse
    interval_cases s <;> decide
  · intro hmem
    fin_cases hmem <;> decide

/-- Settles O10, clause by clause. -/
theorem wrapAroundCorner : Obligations.WrapAroundCorner := by
  refine ⟨fun i hi => shift_ge_153_iff hi, by decide, fun i => ?_, fun i k hsplit hkpos hk => ?_, rfl, ?_, fun k hk => ?_,
    fun v => ?_⟩
  · exact lanes_19_and_0_iff (Nat.mod_lt _ (by decide))
  · have hs : 11 * i % 160 < 160 := Nat.mod_lt _ (by decide)
    rw [lane_footprint_eq_zero_iff hs (by omega)]
    generalize 11 * i % 160 = s at hs hsplit
    omega
  · exact lane_routed 0xFF#8 (s := 152) (k := 19) (by decide) (by decide)
  · rw [lane_footprint_eq_zero_iff (by decide) (by omega)]
    omega
  · rw [absorbAll_acc_after_zeros]
    decide

end Sys2Proof.Machine
end

section
/-! A beat as a parallel reduction (40_update.md R88): consecutive bytes are routed to disjoint bits, up to fourteen of
them. -/

namespace Sys2Proof.Machine

/-- Two routed bytes are disjoint where their shifts are at least 8 apart, either way around. -/
theorem routed_and_routed {s t : Nat} (hs : s < 160) (ht : t < 160) (hlow : 8 ≤ (t + (160 - s)) % 160)
    (hhigh : (t + (160 - s)) % 160 ≤ 152) (b c : Byte) : routed b s &&& routed c t = 0#160 := by
  apply BitVec.eq_of_getLsbD_eq
  intro p hp
  rw [BitVec.getLsbD_and, getLsbD_routed b hs hp, getLsbD_routed c ht hp, BitVec.getLsbD_zero]
  by_cases hb : (p + (160 - s)) % 160 < 8
  · rw [BitVec.getLsbD_of_ge c _ (by omega), Bool.and_false]
  · rw [BitVec.getLsbD_of_ge b _ (Nat.le_of_not_lt hb), Bool.false_and]

/-- Fourteen consecutive bytes are disjoint: 11 to 143 bits lie between the shifts of two of them. -/
theorem routed_and_routed_of_lt (s : Nat) {i j : Nat} (hij : i < j) (hji : j < i + 14) (b c : Byte) :
    routed b ((s + 11 * i) % 160) &&& routed c ((s + 11 * j) % 160) = 0#160 := by
  have hdistance : ((s + 11 * j) % 160 + (160 - (s + 11 * i) % 160)) % 160 = 11 * (j - i) := by omega
  exact routed_and_routed (Nat.mod_lt _ (by decide)) (Nat.mod_lt _ (by decide)) (by omega) (by omega) b c

theorem and_xor_eq_zero {w : Nat} {x y z : BitVec w} (hy : x &&& y = 0#w) (hz : x &&& z = 0#w) :
    x &&& (y ^^^ z) = 0#w := by
  apply BitVec.eq_of_getLsbD_eq
  intro i _
  rw [BitVec.getLsbD_and, BitVec.getLsbD_xor, Bool.and_xor_distrib_left, ← BitVec.getLsbD_and, ← BitVec.getLsbD_and,
    hy, hz, BitVec.getLsbD_zero, Bool.xor_false]

theorem routed_and_xorReduce (s i j : Nat) (b : Byte) (bs : List Byte) (hij : i < j) (hlen : j + bs.length ≤ i + 14) :
    routed b ((s + 11 * i) % 160) &&& xorReduce s j bs = 0#160 := by
  induction bs generalizing j with
  | nil => simp
  | cons c bs ih =>
    rw [List.length_cons] at hlen
    have hrest : routed b ((s + 11 * i) % 160) &&& xorReduce s (j + 1) bs = 0#160 := ih (j + 1) (by omega) (by omega)
    rw [xorReduce_cons, and_xor_eq_zero (routed_and_routed_of_lt s hij (by omega) b c) hrest]

theorem xor_eq_or_of_and_eq_zero {w : Nat} {x y : BitVec w} (h : x &&& y = 0#w) : x ^^^ y = x ||| y := by
  apply BitVec.eq_of_getLsbD_eq
  intro i _
  have hbit : (x.getLsbD i && y.getLsbD i) = false := by rw [← BitVec.getLsbD_and, h, BitVec.getLsbD_zero]
  rw [BitVec.getLsbD_xor, BitVec.getLsbD_or]
  cases hx : x.getLsbD i <;> simp_all

/-- OR may combine the routed bytes of up to fourteen consecutive positions. -/
theorem xorReduce_eq_orReduce (s j : Nat) (bs : List Byte) (hlen : bs.length ≤ 14) :
    xorReduce s j bs = orReduce s j bs := by
  induction bs generalizing j with
  | nil => rfl
  | cons b bs ih =>
    rw [List.length_cons] at hlen
    have hdisjoint : routed b ((s + 11 * j) % 160) &&& xorReduce s (j + 1) bs = 0#160 :=
      routed_and_xorReduce s j (j + 1) b bs (Nat.lt_succ_self j) (by omega)
    rw [xorReduce_cons, xor_eq_or_of_and_eq_zero hdisjoint, ih (j + 1) (by omega)]
    rfl

theorem getLsbD_footprint {s p : Nat} (hs : s < 160) (hp : p < 160) :
    (footprint s).getLsbD p = decide ((p + (160 - s)) % 160 < 8) := by
  rw [footprint, getLsbD_routed _ hs hp]
  exact BitVec.getLsbD_allOnes (v := 8)

/-- A byte and the one fourteen positions on overlap, at the first's lowest bit. -/
theorem footprint_and_footprint_ne_zero (s : Nat) :
    footprint (s % 160) &&& footprint ((s + 11 * 14) % 160) ≠ 0#160 := by
  have hs : s % 160 < 160 := Nat.mod_lt _ (by decide)
  have hfirst : (s % 160 + (160 - s % 160)) % 160 < 8 := by omega
  have hlater : (s % 160 + (160 - (s + 11 * 14) % 160)) % 160 < 8 := by omega
  intro h
  have hbit := congrArg (BitVec.getLsbD · (s % 160)) h
  rw [BitVec.getLsbD_and, getLsbD_footprint hs hs, getLsbD_footprint (Nat.mod_lt _ (by decide)) hs,
    decide_eq_true hfirst, decide_eq_true hlater, BitVec.getLsbD_zero] at hbit
  exact absurd hbit (by decide)

/-- Settles O12: a beat of at most eight bytes is well within the fourteen that are disjoint. -/
theorem beatIsParallelReduction : Obligations.BeatIsParallelReduction :=
  ⟨fun s bytes => ⟨s.absorbAll_acc bytes, s.absorbAll_shift bytes, s.absorbAll_len bytes⟩,
    fun s bytes hlen => xorReduce_eq_orReduce s 0 bytes (by omega),
    fun s _ _ b c hij hji => routed_and_routed_of_lt s hij hji b c, footprint_and_footprint_ne_zero⟩

end Sys2Proof.Machine
end

section
/-! FINAL (41_finalize.md): the digest byte by byte (R111, R112), what it keeps (R113, R114, R116), and how LEN enters
the digest (R117, R118). -/

namespace Sys2Proof.Machine

/-! The digest as ACC and LEN give it. -/

theorem digestOf_eq (acc : Word160) (len : BitVec 64) :
    digestOf acc len = acc ^^^ ((len.zeroExtend 160) <<< 96) := rfl

theorem lane_digestOf_low (acc : Word160) (len : BitVec 64) {k : Nat} (hk : k < 12) :
    lane (digestOf acc len) k = lane acc k := by
  rw [lane_digestOf _ _ (by omega), if_pos hk]

/-- LEN goes into bytes 12 to 19, its least significant byte first (R111; 20_memory.md R44). -/
theorem lane_digestOf_high (acc : Word160) (len : BitVec 64) {j : Nat} (hj : j < 8) :
    lane (digestOf acc len) (12 + j) = lane acc (12 + j) ^^^ len.extractLsb' (8 * j) 8 := by
  rw [lane_digestOf _ _ (by omega), if_neg (by omega), Nat.add_sub_cancel_left]

/-- The upper 64 bits of the digest are ACC's with all of LEN XORed in. -/
theorem extractLsb'_digestOf (acc : Word160) (len : BitVec 64) :
    (digestOf acc len).extractLsb' 96 64 = acc.extractLsb' 96 64 ^^^ len := by
  apply BitVec.eq_of_getLsbD_eq
  intro i hi
  have hbit : 96 + i < 160 := by omega
  simp [digestOf_eq, hi, hbit]

theorem xor_xor_xor_cancel_left {w : Nat} (a x y : BitVec w) : (a ^^^ x) ^^^ (a ^^^ y) = x ^^^ y := by
  rw [BitVec.xor_comm a x, BitVec.xor_assoc, ← BitVec.xor_assoc a, BitVec.xor_self, BitVec.zero_xor]

/-- For one ACC, the digest tells the LENs apart. -/
theorem digestOf_right_injective (acc : Word160) : Function.Injective (digestOf acc) := by
  intro len len' h
  have hupper := congrArg (BitVec.extractLsb' 96 64) h
  rwa [extractLsb'_digestOf, extractLsb'_digestOf, BitVec.xor_right_inj] at hupper

theorem digestOf_zero : digestOf 0#160 0#64 = 0#160 := by decide

theorem digestBytes_zero : digestBytes 0#160 = List.replicate 20 0#8 := by decide

/-! FINAL's next state. -/

/-- The response FINAL answers with. -/
def finalResponse (s : State) : ResponseWord := responseWord okCode .finalized (digestOf s.acc s.len)

@[simp] theorem rspDigest_finalResponse (s : State) : rspDigest (finalResponse s) = digestOf s.acc s.len :=
  rspDigest_responseWord _ _ _

/-- FINAL writes PHASE and the response channel alone (R113, R114). -/
theorem exec_final (s : State) :
    exec .final s = .next { s with phase := .finalized, responses := s.responses ++ [finalResponse s] } := rfl

/-- A host reading digest byte k of FINAL's response reads lane k of the digest. -/
theorem rspDigestByte_finalResponse (s : State) {k : Nat} (hk : k < 20) :
    rspDigestByte (finalResponse s) k = lane (digestOf s.acc s.len) k := by
  rw [rspDigestByte_eq_lane _ hk, rspDigest_finalResponse]

/-- What FINAL keeps, and its answer. -/
theorem exec_final_keeps_storage (s : State) :
    ∃ t, exec .final s = .next t ∧ SameStorage s t ∧ t.responses = s.responses ++ [finalResponse s] :=
  ⟨_, exec_final s, ⟨rfl, rfl⟩, rfl⟩

theorem SameStorage.symm {s t : State} (h : SameStorage s t) : SameStorage t s := ⟨h.store.symm, h.len.symm⟩

theorem SameStorage.sameHash {s t : State} (h : SameStorage s t) : SameHash s t := ⟨h.acc, h.shift, h.len⟩

/-- What FINAL answers rests on the storage and LEN alone. -/
theorem SameStorage.finalResponse_eq {s u : State} (h : SameStorage s u) : finalResponse s = finalResponse u := by
  rw [finalResponse, finalResponse, h.acc, h.len]

/-- Settles O21: the fields of the response, and the digest's lanes below and from byte 12 on. -/
theorem finalReturnsTheDigest : Obligations.FinalReturnsTheDigest := by
  intro s
  refine ⟨finalResponse s, exec_final s, by simp [finalResponse, okCode], by simp [finalResponse, Phase.bits],
    by simp [finalResponse], by rw [rspDigest_finalResponse, digestOf_eq], fun k hk => ?_, fun j hj => ?_⟩
  · rw [rspDigestByte_finalResponse s (by omega), lane_digestOf_low _ _ hk]
  · rw [rspDigestByte_finalResponse s (by omega), lane_digestOf_high _ _ hj]

/-! Words that keep the storage. -/

theorem legalWord_eq_false_iff (cw : CommandWord) : legalWord cw = false ↔ ∃ c, decode cw = .error c := by
  rcases hd : decode cw with c | i <;> simp [legalWord, hd]

/-- A FINAL and an illegal word leave the storage and LEN alone (R113; 60_exceptions.md R142). -/
theorem executeWord_keeps_storage {cw : CommandWord} (h : finalWord cw = true ∨ legalWord cw = false) (s : State) :
    ∃ t, executeWord cw s = .next t ∧ SameStorage s t := by
  rcases h with hfinal | hillegal
  · exact ⟨_, executeWord_final ((finalWord_iff cw).1 hfinal) s, rfl, rfl⟩
  · obtain ⟨c, hd⟩ := (legalWord_eq_false_iff cw).1 hillegal
    exact ⟨_, executeWord_error hd s, rfl, rfl⟩

theorem executeAll_keeps_storage {ws : List CommandWord}
    (h : ∀ cw ∈ ws, finalWord cw = true ∨ legalWord cw = false) (s : State) :
    ∃ t, executeAll ws s = .next t ∧ SameStorage s t := by
  induction ws generalizing s with
  | nil => exact ⟨s, rfl, .refl s⟩
  | cons cw ws ih =>
    obtain ⟨hword, hrest⟩ := List.forall_mem_cons.1 h
    obtain ⟨s₁, hs₁, hfirst⟩ := executeWord_keeps_storage hword s
    obtain ⟨t, ht, hmore⟩ := ih hrest s₁
    exact ⟨t, (executeAll_cons hs₁).trans ht, hfirst.trans hmore⟩

/-- Settles O22: the first FINAL and the words between keep the storage and LEN, which decide the second answer. -/
theorem finalIsIdempotent : Obligations.FinalIsIdempotent := by
  intro s ws hws
  obtain ⟨t, ht, hst, htresp⟩ := exec_final_keeps_storage s
  obtain ⟨u, hu, htu⟩ := executeAll_keeps_storage hws t
  obtain ⟨w, hw, huw, hwresp⟩ := exec_final_keeps_storage u
  have hsu : SameStorage s u := hst.trans htu
  have hsw : SameStorage s w := hsu.trans huw
  exact ⟨t, u, w, ht, hu, hw, hsw.store.symm, hsw.len.symm, hsw.sameHash, finalResponse s, finalResponse u, htresp,
    hwresp, congrArg rspDigest hsu.finalResponse_eq⟩

/-- From two states of one storage, a command sequence and the same sequence with its FINALs removed leave one storage:
a FINAL moves the first state alone and keeps its storage, and any other word moves both alike. -/
theorem SameStorage.executeAll_filter_final {s s' : State} (h : SameStorage s s') (ws : List CommandWord) :
    ∃ t u, executeAll ws s = .next t ∧ executeAll (ws.filter fun cw => !finalWord cw) s' = .next u ∧
      SameStorage t u := by
  induction ws generalizing s s' with
  | nil => exact ⟨s, s', rfl, rfl, h⟩
  | cons cw ws ih =>
    cases hfinal : finalWord cw with
    | true =>
      obtain ⟨s₁, hs₁, hkept⟩ := executeWord_keeps_storage (.inl hfinal) s
      obtain ⟨t, u, ht, hu, htu⟩ := ih (hkept.symm.trans h)
      exact ⟨t, u, (executeAll_cons hs₁).trans ht, by simpa [hfinal] using hu, htu⟩
    | false =>
      obtain ⟨s₁, s₁', hs₁, hs₁', h₁, -⟩ := h.executeWord_alike cw
      obtain ⟨t, u, ht, hu, htu⟩ := ih h₁
      exact ⟨t, u, (executeAll_cons hs₁).trans ht, by simpa [hfinal] using (executeAll_cons hs₁').trans hu, htu⟩

/-- Settles O23: both sequences start from the same state. -/
theorem removingFinalsKeepsTheHash : Obligations.RemovingFinalsKeepsTheHash := by
  intro s ws
  obtain ⟨t, u, ht, hu, htu⟩ := (SameStorage.refl s).executeAll_filter_final ws
  exact ⟨t, u, ht, hu, htu.store, htu.sameHash⟩

/-- Settles O25: the shared ACC cancels lane by lane, and the digest is injective in LEN. -/
theorem lengthSeparatesDigests : Obligations.LengthSeparatesDigests := by
  intro s u hacc hlen
  rw [hacc]
  refine ⟨(digestOf_right_injective u.acc).ne hlen, fun k hk => ?_, fun j hj => ?_⟩
  · rw [lane_digestOf_low _ _ hk, lane_digestOf_low _ _ hk]
  · rw [lane_digestOf_high _ _ hj, lane_digestOf_high _ _ hj, BitVec.extractLsb'_xor]
    exact xor_xor_xor_cancel_left _ _ _

/-- FINAL where ACC and LEN are 0 answers the zero digest. -/
theorem exec_final_of_zero {s : State} (hacc : s.acc = 0#160) (hlen : s.len = 0#64) :
    ∃ t r, exec .final s = .next t ∧ t.responses = s.responses ++ [r] ∧
      rspDigest r = 0#160 ∧ digestBytes (rspDigest r) = List.replicate 20 0#8 := by
  obtain ⟨t, ht, -, hresp⟩ := exec_final_keeps_storage s
  have hzero : rspDigest (finalResponse s) = 0#160 := by rw [rspDigest_finalResponse, hacc, hlen, digestOf_zero]
  exact ⟨t, finalResponse s, ht, hresp, hzero, by rw [hzero, digestBytes_zero]⟩

/-- Settles O24: reset and INIT both clear ACC and LEN. -/
theorem finalOfNothingIsZero : Obligations.FinalOfNothingIsZero := by
  refine ⟨fun v => exec_final_of_zero (State.resetOf_acc v) rfl, fun s => ?_⟩
  obtain ⟨u, r, hu, hr⟩ := exec_final_of_zero (s := s.clearHash.respond okCode 0#160) s.clearHash_acc rfl
  exact ⟨_, u, r, rfl, hu, hr⟩

end Sys2Proof.Machine
end

section
/-! INIT (42_lifecycle.md): its whole next state (R130), and that nothing before it shows in what follows it (R131). -/

namespace Sys2Proof.Machine

/-! INIT's next state. -/

/-- INIT's response is the all-zero word: CODE OK, PHASE CREATED and the zero DIGEST are all 0. -/
theorem responseWord_created_zero : responseWord okCode .created 0#160 = 0#168 := by decide

theorem exec_init (s : State) :
    exec .init s = .next { s with store := HashStore.cleared s.variant, len := 0#64, phase := .created,
                                  responses := s.responses ++ [0#168] } := by
  rw [← responseWord_created_zero]
  rfl

/-- Settles O27: `exec_init`, and what cleared storage reads as. -/
theorem initCompletes : Obligations.InitCompletes := fun s =>
  ⟨_, exec_init s, rfl, HashStore.cleared_acc _, HashStore.cleared_shift _, HashStore.cleared_variant _⟩

/-! Two states in the same message, whatever their variants, interfaces and pasts. -/

/-- The same hash state and PHASE: all of a state that shows in what command words do and answer. -/
structure SameMessage (s u : State) : Prop extends SameHash s u where
  phase : s.phase = u.phase

theorem SameHash.absorbAll {s u : State} (h : SameHash s u) (bs : List Byte) :
    SameHash (s.absorbAll bs) (u.absorbAll bs) where
  acc := by rw [State.absorbAll_acc, State.absorbAll_acc, h.acc, h.shift]
  shift := Fin.ext (by rw [State.absorbAll_shift, State.absorbAll_shift, h.shift])
  len := by rw [State.absorbAll_len, State.absorbAll_len, h.len]

/-- Cleared states are in the same message, an empty one. -/
theorem sameMessage_clearHash (s u : State) : SameMessage s.clearHash u.clearHash where
  acc := s.clearHash_acc.trans u.clearHash_acc.symm
  shift := s.clearHash_shift.trans u.clearHash_shift.symm
  len := rfl
  phase := rfl

theorem SameMessage.respond {s u : State} (h : SameMessage s u) (code code' : BitVec 2) (digest digest' : Word160) :
    SameMessage (s.respond code digest) (u.respond code' digest') :=
  ⟨⟨h.acc, h.shift, h.len⟩, h.phase⟩

theorem SameHash.setPhase {s u : State} (h : SameHash s u) (p : Phase) : SameMessage (s.setPhase p) (u.setPhase p) :=
  ⟨⟨h.acc, h.shift, h.len⟩, rfl⟩

/-- `t` and `w` hold the same responses more than `s` and `u`. -/
def AnsweredTheSame (s u t w : State) : Prop :=
  ∃ rs, t.responses = s.responses ++ rs ∧ w.responses = u.responses ++ rs

theorem AnsweredTheSame.trans {s u s₁ u₁ t w : State} (h : AnsweredTheSame s u s₁ u₁)
    (h' : AnsweredTheSame s₁ u₁ t w) : AnsweredTheSame s u t w := by
  obtain ⟨rs, hs, hu⟩ := h
  obtain ⟨rs', ht, hw⟩ := h'
  exact ⟨rs ++ rs', by rw [ht, hs, List.append_assoc], by rw [hw, hu, List.append_assoc]⟩

/-- The answer to a command word rests on the word and on the hash state and PHASE after it. -/
theorem SameMessage.answeredTheSame {cw : CommandWord} {s u t w : State} (h : SameMessage t w)
    (ht : executeWord cw s = .next t) (hw : executeWord cw u = .next w) : AnsweredTheSame s u t w := by
  obtain ⟨t', ht', -, htresp⟩ := executeWord_answer cw s
  obtain ⟨w', hw', -, hwresp⟩ := executeWord_answer cw u
  cases ht'.symm.trans ht
  cases hw'.symm.trans hw
  have hdigest : answerDigest cw t = answerDigest cw w := by rw [answerDigest, answerDigest, h.acc, h.len]
  rw [← h.phase, ← hdigest] at hwresp
  exact ⟨_, htresp, hwresp⟩

/-- A command word keeps two states in the same message. -/
theorem SameMessage.executeWord_keeps {s u : State} (h : SameMessage s u) (cw : CommandWord) :
    ∃ t w, executeWord cw s = .next t ∧ executeWord cw u = .next w ∧ SameMessage t w := by
  rcases hd : decode cw with c | _ | bytes | _
  case error => exact ⟨_, _, executeWord_error hd s, executeWord_error hd u, h.respond ..⟩
  case ok.init =>
    exact ⟨_, _, executeWord_init hd s, executeWord_init hd u, (sameMessage_clearHash s u).respond ..⟩
  case ok.update =>
    exact ⟨_, _, executeWord_update hd s, executeWord_update hd u,
      ((h.toSameHash.absorbAll bytes).setPhase _).respond ..⟩
  case ok.final =>
    exact ⟨_, _, executeWord_final hd s, executeWord_final hd u, (h.toSameHash.setPhase _).respond ..⟩

/-- A command sequence keeps two states in the same message, and its answers are the same, response by response. -/
theorem SameMessage.executeAll_keeps {s u : State} (h : SameMessage s u) (ws : List CommandWord) :
    ∃ t w, executeAll ws s = .next t ∧ executeAll ws u = .next w ∧ SameMessage t w ∧ AnsweredTheSame s u t w := by
  induction ws generalizing s u with
  | nil => exact ⟨s, u, rfl, rfl, h, [], by simp, by simp⟩
  | cons cw ws ih =>
    obtain ⟨s₁, u₁, hs₁, hu₁, h₁⟩ := h.executeWord_keeps cw
    obtain ⟨t, w, ht, hw, htw, hanswers⟩ := ih h₁
    exact ⟨t, w, (executeAll_cons hs₁).trans ht, (executeAll_cons hu₁).trans hw, htw,
      (h₁.answeredTheSame hs₁ hu₁).trans hanswers⟩

/-- Settles O28: INIT puts any two states in the same message, its answer included, and the words after it keep them
there. The state it leaves is the reset state's by `exec_init`. -/
theorem initDiscardsThePast : Obligations.InitDiscardsThePast := by
  refine ⟨fun s u cw ws hinit => ?_, fun s => ⟨_, exec_init s, rfl, rfl, rfl⟩⟩
  have hs := executeWord_init hinit s
  have hu := executeWord_init hinit u
  have hfresh := (sameMessage_clearHash s u).respond okCode okCode 0#160 0#160
  obtain ⟨t, w, ht, hw, htw, hmore⟩ := hfresh.executeAll_keeps ws
  obtain ⟨rs, htrs, hwrs⟩ := (hfresh.answeredTheSame hs hu).trans hmore
  exact ⟨t, w, rs, (executeAll_cons hs).trans ht, (executeAll_cons hu).trans hw, htrs, hwrs, htw.toSameHash, htw.phase⟩

end Sys2Proof.Machine
end

section
/-! Illegal words and stops (60_exceptions.md): an illegal word is answered and leaves the registers (R142), after reset
nothing but a merged second host stops the machine (R140, R144, R147), and instances share nothing (R148). -/

namespace Sys2Proof.Machine

/-! An illegal command word. -/

/-- Settles O29: the word is raised, and the fields are read back from the response. -/
theorem illegalWordChangesNothing : Obligations.IllegalWordChangesNothing := by
  intro cw c s hd
  refine ⟨responseWord (illegalCode c) s.phase 0#160, ?_, ?_, ?_, by simp, by simp, by simp⟩
  · rw [executeWord_error hd, State.raiseIllegal_eq]
  · rintro rfl; exact rspCode_responseWord _ _ _
  · rintro rfl; exact rspCode_responseWord _ _ _

section acceptance
variable {s : State} {cw : CommandWord} {rest : List CommandWord} (hcmd : s.commands = cw :: rest)
  (hrel : s.resetStatus = .released) (hroom : s.responses.length < Config.commandsAhead + 1)
include hcmd hrel hroom

/-- With the host idle the step executes the oldest word (30_encoding.md R71). -/
theorem step_of_room (hidle : s.inputs = []) : step s = executeWord cw { s with commands := rest } :=
  (step_nil hidle).trans (blockMove_of_room hcmd hrel hroom)

/-- With the host waiting the step executes the oldest word, and the wait is used up. -/
theorem step_of_room_wait {more : List HostAction} (hwait : s.inputs = .wait :: more) :
    step s = executeWord cw { s with commands := rest, inputs := more } :=
  (step_wait hwait).trans (blockMove_of_room (s := { s with inputs := more }) hcmd hrel hroom)

end acceptance

/-- Settles O37: host idle or waiting, the step executes the oldest word, which raises its code. -/
theorem stepAnswersAnIllegalWord : Obligations.StepAnswersAnIllegalWord := by
  intro s cw rest c hcmd hd hrel hroom
  refine ⟨fun hidle => ?_, fun more hwait => ?_⟩
  · rw [step_of_room hcmd hrel hroom hidle, executeWord_error hd]
  · rw [step_of_room_wait hcmd hrel hroom hwait, executeWord_error hd]

/-! Illegal words between legal ones. -/

/-- The same storage, LEN and PHASE: every register of 10_state.md. -/
structure SameRegisters (s u : State) : Prop extends SameStorage s u where
  phase : s.phase = u.phase

/-- PHASE after a command word rests on the word and on PHASE before it. -/
theorem executeWord_phase_congr {cw : CommandWord} {s u t w : State} (h : s.phase = u.phase)
    (ht : executeWord cw s = .next t) (hw : executeWord cw u = .next w) : t.phase = w.phase := by
  obtain ⟨t', ht', hinit, hupdate, hfinal, hillegal⟩ := phaseFollowsTheCommand cw s
  obtain ⟨w', hw', hinit', hupdate', hfinal', hillegal'⟩ := phaseFollowsTheCommand cw u
  cases ht'.symm.trans ht
  cases hw'.symm.trans hw
  rcases hd : decode cw with c | _ | bytes | _
  case error => rw [hillegal c hd, hillegal' c hd, h]
  case ok.init => rw [hinit hd, hinit' hd]
  case ok.update => rw [hupdate bytes hd, hupdate' bytes hd]
  case ok.final => rw [hfinal hd, hfinal' hd]

/-- A command word keeps two states' registers the same. -/
theorem SameRegisters.executeWord_keeps {s u : State} (h : SameRegisters s u) (cw : CommandWord) :
    ∃ t w, executeWord cw s = .next t ∧ executeWord cw u = .next w ∧ SameRegisters t w := by
  obtain ⟨t, w, ht, hw, hstorage, -⟩ := h.toSameStorage.executeWord_alike cw
  exact ⟨t, w, ht, hw, hstorage, executeWord_phase_congr h.phase ht hw⟩

/-- An illegal word leaves the registers (R142), and so a state whose registers were another's. -/
theorem SameRegisters.executeWord_illegal {s u : State} (h : SameRegisters s u) {cw : CommandWord}
    (hillegal : legalWord cw = false) : ∃ t, executeWord cw s = .next t ∧ SameRegisters t u := by
  obtain ⟨c, hd⟩ := (legalWord_eq_false_iff cw).1 hillegal
  exact ⟨_, executeWord_error hd s, ⟨h.store, h.len⟩, h.phase⟩

/-- From two states of the same registers, a command sequence and the same sequence with its illegal words removed leave
the same registers: a legal word moves both states alike, and an illegal one only answers in the first. -/
theorem SameRegisters.executeAll_filter_legal {s u : State} (h : SameRegisters s u) (ws : List CommandWord) :
    ∃ t w, executeAll ws s = .next t ∧ executeAll (ws.filter legalWord) u = .next w ∧ SameRegisters t w := by
  induction ws generalizing s u with
  | nil => exact ⟨s, u, rfl, rfl, h⟩
  | cons cw ws ih =>
    cases hlegal : legalWord cw with
    | true =>
      obtain ⟨s₁, u₁, hs₁, hu₁, h₁⟩ := h.executeWord_keeps cw
      obtain ⟨t, w, ht, hw, htw⟩ := ih h₁
      rw [List.filter_cons_of_pos hlegal]
      exact ⟨t, w, (executeAll_cons hs₁).trans ht, (executeAll_cons hu₁).trans hw, htw⟩
    | false =>
      obtain ⟨s₁, hs₁, h₁⟩ := h.executeWord_illegal hlegal
      obtain ⟨t, w, ht, hw, htw⟩ := ih h₁
      rw [List.filter_cons_of_neg (by simp [hlegal])]
      exact ⟨t, w, (executeAll_cons hs₁).trans ht, hw, htw⟩

/-- Settles O30: both sequences start from the same state. -/
theorem illegalWordsAreTransparent : Obligations.IllegalWordsAreTransparent := by
  intro s ws
  have hsame : SameRegisters s s := ⟨.refl s, rfl⟩
  obtain ⟨t, u, ht, hu, htu⟩ := hsame.executeAll_filter_legal ws
  exact ⟨t, u, ht, hu, htu.store, htu.len, htu.phase⟩

/-! After the first reset. -/

/-- The outcome is a next state, and one that has seen a reset. -/
def GoesOn (o : Host.Outcome State Fault Refusal) : Prop :=
  ∃ t, o = .next t ∧ t.resetStatus ≠ .neverReset

theorem reservedResponse_of_conforming {r : ResponseWord} (h : conformingResponse r = true) :
    reservedResponse r = false := by
  simp only [conformingResponse, Bool.and_eq_true, decide_eq_true_eq] at h
  obtain ⟨⟨⟨hcode, hphase⟩, -⟩, -⟩ := h
  exact reservedResponse_eq_false hcode hphase

section GoesOn
variable {s : State} (hreset : s.resetStatus ≠ .neverReset)
include hreset

/-- A command word, legal or not, always answers a next state, and leaves the reset input (R144). -/
theorem executeWord_goesOn (cw : CommandWord) : GoesOn (executeWord cw s) := by
  obtain ⟨t, ht, hsame, -⟩ := executeWord_answer cw s
  exact ⟨t, ht, hsame.resetStatus ▸ hreset⟩

/-- The block's one fault is a command word before the first reset (70_reset_and_hazards.md R162). -/
theorem blockMove_goesOn : GoesOn (blockMove s) := by
  cases hcmd : s.commands with
  | nil => exact ⟨s, blockMove_of_noCommand hcmd, hreset⟩
  | cons cw rest =>
    cases hstatus : s.resetStatus with
    | neverReset => exact absurd hstatus hreset
    | asserted => exact ⟨s, blockMove_of_asserted hstatus, hreset⟩
    | released =>
      by_cases hroom : s.responses.length < Config.commandsAhead + 1
      · rw [blockMove_of_room hcmd hstatus hroom]
        exact executeWord_goesOn (s := { s with commands := rest }) hreset cw
      · exact ⟨s, blockMove_of_full hstatus hroom, hreset⟩

/-- Taking stops at a reserved response alone, and no waiting response is one. -/
theorem GoodInterface.takeResponse_goesOn (h : GoodInterface s) : GoesOn (takeResponse s) := by
  cases hresp : s.responses with
  | nil => exact ⟨s, by simp [takeResponse, hresp], hreset⟩
  | cons r rs =>
    have hconf : conformingResponse r = true := h.conforming r (by simp [hresp])
    exact ⟨_, takeResponse_of_cons hresp (reservedResponse_of_conforming hconf), hreset⟩

/-- Releasing reset leads to `released` or changes nothing. -/
theorem State.releaseReset_ne_neverReset : s.releaseReset.resetStatus ≠ .neverReset := by
  by_cases hstatus : s.resetStatus = .asserted
  · simp [s.releaseReset_asserted hstatus]
  · rwa [s.releaseReset_of_ne hstatus]

/-- Only a second host's word stops a host action (R147). -/
theorem GoodInterface.hostAct_goesOn (h : GoodInterface s) (a : HostAction) :
    GoesOn (hostAct a s) ∨ ∃ cw, a = .issueByOther cw := by
  cases a with
  | issue cw => exact .inl ⟨_, rfl, hreset⟩
  | issueByOther cw => exact .inr ⟨cw, rfl⟩
  | take => exact .inl (h.takeResponse_goesOn hreset)
  | assertReset => exact .inl ⟨_, rfl, by simp⟩
  | releaseReset => exact .inl ⟨_, rfl, State.releaseReset_ne_neverReset hreset⟩
  | wait => exact .inl (blockMove_goesOn hreset)

end GoesOn

/-- Settles O44: with no action pending the step is the block's move, and else the host's next action. -/
theorem neverStopsAfterReset : Obligations.NeverStopsAfterReset := by
  intro s h hreset
  cases hin : s.inputs with
  | nil =>
    rw [step_nil hin]
    exact .inl (blockMove_goesOn hreset)
  | cons a rest =>
    rw [step_cons hin]
    have hrest : GoodInterface { s with inputs := rest } := h.congr rfl rfl rfl
    rcases hrest.hostAct_goesOn (s := { s with inputs := rest }) hreset a with hgoes | ⟨cw, rfl⟩
    · exact .inl hgoes
    · exact .inr ⟨rfl, cw, rest, rfl⟩

/-! Several instances. -/

/-- Where a step at `k` answers a platform, the list has no entry `k` and nothing happened, or that entry alone took its
own step. -/
theorem platformStep_cases {instances after : List State} {k : Nat} (h : platformStep instances k = .next after) :
    (instances[k]? = none ∧ after = instances) ∨
    ∃ s t, instances[k]? = some s ∧ step s = .next t ∧ after = instances.set k t := by
  unfold platformStep at h
  split at h
  · rename_i hnone
    cases h
    exact .inl ⟨hnone, rfl⟩
  · rename_i s hsome
    split at h
    · rename_i t ht
      cases h
      exact .inr ⟨s, t, hsome, ht, rfl⟩
    · cases h
    · cases h

/-- Settles O48: replacing one entry of the list leaves the others. -/
theorem instancesAreIndependent : Obligations.InstancesAreIndependent := by
  intro instances after k h
  rcases platformStep_cases h with ⟨hnone, rfl⟩ | ⟨s, t, hsome, ht, rfl⟩
  · exact ⟨fun j _ => rfl, fun s hs => absurd (hnone.symm.trans hs) (by simp)⟩
  · refine ⟨fun j hj => List.getElem?_set_ne hj.symm, fun s' hs' => ?_⟩
    cases hsome.symm.trans hs'
    have hk : k < instances.length := (List.getElem?_eq_some_iff.1 hsome).1
    exact ⟨t, ht, List.getElem?_set_self hk⟩

end Sys2Proof.Machine
end

section
/-! The waiting command words, executed one a step (70_reset_and_hazards.md R166, in its bounded form). -/

namespace Sys2Proof.Machine

/-- The command channel put to given words. -/
def State.putCommands (s : State) (ws : List CommandWord) : State := { s with commands := ws }

theorem State.putCommands_absorbAll (s : State) (ws : List CommandWord) (bytes : List Byte) :
    (s.putCommands ws).absorbAll bytes = (s.absorbAll bytes).putCommands ws := by
  induction bytes generalizing s with
  | nil => rfl
  | cons b bytes ih => exact ih (s.absorb b)

/-- A command word does the same whatever words wait behind it. -/
theorem executeWord_putCommands {cw : CommandWord} {s t : State} (ht : executeWord cw s = .next t)
    (ws : List CommandWord) : executeWord cw (s.putCommands ws) = .next (t.putCommands ws) := by
  rcases hd : decode cw with c | _ | bytes | _
  case error =>
    cases (executeWord_error hd s).symm.trans ht
    exact executeWord_error hd _
  case ok.init =>
    cases (executeWord_init hd s).symm.trans ht
    exact executeWord_init hd _
  case ok.update =>
    cases (executeWord_update hd s).symm.trans ht
    rw [executeWord_update hd, State.putCommands_absorbAll]
    rfl
  case ok.final =>
    cases (executeWord_final hd s).symm.trans ht
    exact executeWord_final hd _

/-- With the host idle and room for every response, `ws` waiting on the channel and `ws` executed in order reach the
same state: each step accepts the oldest word, and its response takes the room that was left for it. -/
theorem run_putCommands {s : State} (ws : List CommandWord) (hrel : s.resetStatus = .released)
    (hidle : s.inputs = []) (hcmd : s.commands = [])
    (hroom : s.responses.length + ws.length ≤ Config.commandsAhead + 1) :
    ∃ t, executeAll ws s = .next t ∧ Host.Core.run core ws.length (s.putCommands ws) = .next t ∧
      t.responses.length = s.responses.length + ws.length := by
  induction ws generalizing s with
  | nil =>
    refine ⟨s, rfl, congrArg Host.Outcome.next ?_, rfl⟩
    exact State.ext_fields rfl rfl rfl rfl hcmd.symm rfl rfl rfl
  | cons cw ws ih =>
    obtain ⟨s₁, r, hs₁, hresp⟩ := executeWord_answers cw s
    have hsame := executeWord_sameInterface hs₁
    have hlen : s₁.responses.length = s.responses.length + 1 := by simp [hresp]
    rw [List.length_cons] at hroom ⊢
    have hstep : step (s.putCommands (cw :: ws)) = .next (s₁.putCommands ws) :=
      (step_of_room (s := s.putCommands (cw :: ws)) rfl hrel (show s.responses.length < _ by omega) hidle).trans
        (executeWord_putCommands hs₁ ws)
    obtain ⟨t, ht, hrun, hcount⟩ := ih (hsame.resetStatus.trans hrel) (hsame.inputs.trans hidle)
      (hsame.commands.trans hcmd) (by omega)
    exact ⟨t, (executeAll_cons hs₁).trans ht, (run_succ hstep _).trans hrun, by omega⟩

/-- Settles O46: a state is itself with its own words put back on the emptied command channel. -/
theorem waitingCommandsAreExecuted : Obligations.WaitingCommandsAreExecuted :=
  fun s hrel hidle hroom => run_putCommands (s := { s with commands := [] }) s.commands hrel hidle rfl hroom

end Sys2Proof.Machine
end

section
/-! Before the first reset (70_reset_and_hazards.md R162): no step executes a command word. -/

namespace Sys2Proof.Machine

/-- From `s` to `t` no command was executed and no reset asserted: the same registers and reset input, and no response
more. -/
structure NoCommandStep (s t : State) : Prop extends SameRegisters t s where
  resetStatus : t.resetStatus = s.resetStatus
  noResponse : t.responses.length ≤ s.responses.length

theorem NoCommandStep.refl (s : State) : NoCommandStep s s := ⟨⟨.refl s, rfl⟩, rfl, le_rfl⟩

/-- Taking a response executes no command. -/
theorem takeResponse_noCommandStep {s t : State} (ht : takeResponse s = .next t) : NoCommandStep s t := by
  rcases takeResponse_cases ht with ⟨_, rfl⟩ | ⟨r, rest, hresp, _, rfl⟩
  · exact .refl _
  · exact ⟨⟨⟨rfl, rfl⟩, rfl⟩, rfl, by simp [hresp]⟩

section neverReset
variable {s t : State} (hreset : s.resetStatus = .neverReset)
include hreset

/-- Before the first reset the block stops or is idle. -/
theorem eq_of_blockMove_neverReset (ht : blockMove s = .next t) : t = s := by
  rcases blockMove_cases ht with heq | ⟨_, _, _, hrel, _, _⟩
  · exact heq
  · cases hreset.symm.trans hrel

theorem hostAct_noCommandStep {a : HostAction} (ha : a ≠ .assertReset) (ht : hostAct a s = .next t) :
    NoCommandStep s t := by
  cases a with
  | issue cw => cases ht; exact ⟨⟨⟨rfl, rfl⟩, rfl⟩, rfl, le_rfl⟩
  | issueByOther cw => cases ht
  | take => exact takeResponse_noCommandStep ht
  | assertReset => exact absurd rfl ha
  | releaseReset =>
    have hkept : s.releaseReset = s := s.releaseReset_of_ne (by simp [hreset])
    cases ht
    rw [hkept]
    exact .refl s
  | wait =>
    cases eq_of_blockMove_neverReset hreset ht
    exact .refl s

theorem step_noCommandStep (ht : step s = .next t) (hassert : s.inputs.head? ≠ some .assertReset) :
    NoCommandStep s t := by
  cases hin : s.inputs with
  | nil =>
    cases eq_of_blockMove_neverReset hreset ((step_nil hin).symm.trans ht)
    exact .refl s
  | cons a rest =>
    have ha : a ≠ .assertReset := fun h => hassert (by simp [hin, h])
    obtain ⟨⟨⟨hstore, hlen⟩, hphase⟩, hkept, hresp⟩ :=
      hostAct_noCommandStep (s := { s with inputs := rest }) hreset ha ((step_cons hin).symm.trans ht)
    exact ⟨⟨⟨hstore, hlen⟩, hphase⟩, hkept, hresp⟩

end neverReset

/-- Settles O41: the block's move faults on a waiting word, and every step that answers a next state and asserts no
reset is one without a command. -/
theorem noCommandBeforeTheFirstReset : Obligations.NoCommandBeforeTheFirstReset := by
  intro s hreset
  refine ⟨fun hidle hcmd => ?_, fun t ht hassert => ?_⟩
  · obtain ⟨cw, rest, hcons⟩ := List.exists_cons_of_ne_nil hcmd
    exact (step_nil hidle).trans (blockMove_of_neverReset hcons hreset)
  · have h := step_noCommandStep hreset ht hassert
    exact ⟨h.store, h.len, h.phase, h.resetStatus.trans hreset, h.noResponse⟩

end Sys2Proof.Machine
end

section
/-! Reset (70_reset_and_hazards.md R160, R161): the values it puts, what it discards, and the interface invariant where
it holds at the start of a run. -/

namespace Sys2Proof.Machine

@[simp] theorem State.assertReset_acc (s : State) : s.assertReset.acc = 0#160 := HashStore.cleared_acc _

@[simp] theorem State.assertReset_shift (s : State) : s.assertReset.shift = 0 := HashStore.cleared_shift _

/-- Settles O39: cleared storage in either variant, put there by reset and by INIT alike. -/
theorem resetValues : Obligations.ResetValues := by
  refine ⟨fun v => ⟨State.resetOf_acc v, rfl, State.resetOf_shift v, rfl⟩, ?_, fun s => ?_, fun s => ?_⟩
  · exact ⟨_, _, _, rfl, fun j hj => by simp, rfl⟩
  · exact ⟨rfl, s.assertReset_acc, rfl, s.assertReset_shift, rfl⟩
  · exact ⟨_, exec_init s, rfl, rfl, rfl⟩

/-- Asserting reset leaves nothing of the state before it but the variant, the host's coming actions and what became of
the last response. -/
theorem step_assertReset {s : State} {more : List HostAction} (h : s.inputs = .assertReset :: more) :
    step s = .next { State.resetOf s.variant with
      resetStatus := .asserted, inputs := more, lastResponse := s.fateAtReset } :=
  step_cons h

theorem step_releaseReset {s : State} {more : List HostAction} (h : s.inputs = .releaseReset :: more)
    (hreset : s.resetStatus = .asserted) :
    step s = .next { s with resetStatus := .released, inputs := more } :=
  (step_cons h).trans (congrArg Host.Outcome.next (State.releaseReset_asserted _ hreset))

/-- A session of reset asserted, reset released, a word issued and a wait executes the word on the reset state. -/
theorem run_resetSession {s : State} {cw : CommandWord}
    (hin : s.inputs = [.assertReset, .releaseReset, .issue cw, .wait]) :
    Host.Core.run core 4 s =
      executeWord cw { State.resetOf s.variant with lastResponse := s.fateAtReset } := by
  obtain ⟨t, ht⟩ := executeWord_total cw { State.resetOf s.variant with lastResponse := s.fateAtReset }
  have hwait : step { State.resetOf s.variant with
      commands := [cw], inputs := [.wait], lastResponse := s.fateAtReset } = .next t :=
    (step_of_room_wait rfl rfl (by simp) rfl).trans ht
  rw [run_succ (step_assertReset hin), run_succ (step_releaseReset rfl rfl), run_succ (step_issue rfl), ht]
  exact run_succ hwait 0

/-- Settles O40: the reset step, the block's idle move while reset is asserted, and the session after the release. -/
theorem resetDiscardsWhatIsInFlight : Obligations.ResetDiscardsWhatIsInFlight := by
  refine ⟨fun s more hin => step_assertReset hin, fun s hreset hidle => ?_, fun s more hreset hwait => ?_,
    fun s cw hin => run_resetSession hin⟩
  · exact (step_nil hidle).trans (blockMove_of_asserted hreset)
  · exact (step_wait hwait).trans (blockMove_of_asserted (s := { s with inputs := more }) hreset)

/-- The invariant speaks of waiting responses: with none it holds. -/
theorem goodInterface_of_noResponse {s : State} (h : s.responses = []) : GoodInterface s :=
  ⟨by simp [h], by simp [h], fun _ => h, by simp [h]⟩

/-- Settles O42: no response waits after reset or after power-up. -/
theorem goodInterfaceAtReset : Obligations.GoodInterfaceAtReset :=
  ⟨goodInterface_of_noResponse rfl, fun _ => goodInterface_of_noResponse rfl, fun _ => goodInterface_of_noResponse rfl⟩

end Sys2Proof.Machine
end
